-- ==== Sys2Proof/Word.lean ====
section
/-! DEFINITION. The one word width of the hardware (00_scope R8). -/

namespace Sys2Proof

/-- A byte: a register, a memory cell, an opcode, an operand (R6 `XLEN`, R8). -/
abbrev Byte := BitVec 8

end Sys2Proof
end

