-- ==== Sys2Proof/Config.lean ====
section
/-! DEFINITION. The parameters of 00_scope R6 whose values the source itself fixes. The parameters
that R6 and R81 leave a model to set (the opcode constants `OPC_*` and the three switches) are in
`Sys2Proof/Machine/Params.lean`, under the same namespace `Config`. The spec leaves no value free
(93_implementation_defined, end of part 1), so there is no constant without a body. -/

namespace Sys2Proof.Config

/-- `NREG`: the number of general registers (R6, R21). -/
def NREG : Nat := 8

/-- `MEMSIZE`: the number of memory cells (R6, R34). -/
def MEMSIZE : Nat := 256

/-- `SP_SEED`: the reset value of register 7 and of the stack pointer (R6, R23, R38). -/
def SP_SEED : Byte := 0xF4

/-- `PC_RESET`: the reset value of the program counter (R6, R38). -/
def PC_RESET : Nat := 0

/-- `LOAD_BASE`: the address at which a program image is placed (R6, R65). -/
def LOAD_BASE : Nat := 0

end Sys2Proof.Config
end

