-- ==== Sys2Proof/Machine/Params.lean ====
section
/-! DEFINITION. The parameters that the spec tells a model to carry under their own names, with the
defaults of 00_scope R6 and 30_encoding R80. -/

namespace Sys2Proof.Config

/-- D2: whether HLT advances `pc` by 1 when it halts the engine. UNVERIFIED, log 2 (unsafe). -/
def HLT_ADVANCES : Bool := false

/-- D6: whether the two bytes after the opcode are bounds-checked even when the instruction does not
use them. UNVERIFIED, log 3 (safe: the model faults where a laxer engine goes on). -/
def FETCH_OVERREAD_CHECKED : Bool := true

/-- D12: whether CMP orders its operands as two's-complement numbers. UNVERIFIED, log 4 (unsafe). -/
def CMP_SIGNED : Bool := true

/-! The 20 opcode bytes of R80. HLT, LDI, PRN and PUSH are printed in the source; the other 16 are
`[from general knowledge, not in source]` (R81, G2, D20): PRESUMED, log 1 (unsafe). -/

def OPC_HLT  : Byte := 0b00000001
def OPC_LDI  : Byte := 0b10000010
def OPC_PRN  : Byte := 0b01000111
def OPC_ADD  : Byte := 0b10100000
def OPC_MUL  : Byte := 0b10100010
def OPC_AND  : Byte := 0b10101000
def OPC_OR   : Byte := 0b10101010
def OPC_XOR  : Byte := 0b10101011
def OPC_SHL  : Byte := 0b10101100
def OPC_SHR  : Byte := 0b10101101
def OPC_MOD  : Byte := 0b10100100
def OPC_NOT  : Byte := 0b01101001
def OPC_CMP  : Byte := 0b10100111
def OPC_PUSH : Byte := 0b01000101
def OPC_POP  : Byte := 0b01000110
def OPC_CALL : Byte := 0b01010000
def OPC_RET  : Byte := 0b00010001
def OPC_JMP  : Byte := 0b01010100
def OPC_JEQ  : Byte := 0b01010101
def OPC_JNE  : Byte := 0b01010110

end Sys2Proof.Config
end

