-- ==== Sys2Proof/Syntax.lean ====
section
/-! DEFINITION. The instructions: one constructor per row of spec/opcode_table.json (30_encoding R80),
in the table's order. `a` is the first operand byte, `b` the second; each is the whole byte, not
masked (R77): a register operand above 7 is a legal encoding whose use raises a fault. -/

namespace Sys2Proof

inductive Instr where
  | hlt
  | ldi  (a imm : Byte)
  | prn  (a : Byte)
  | add  (a b : Byte)
  | mul  (a b : Byte)
  | and  (a b : Byte)
  | or   (a b : Byte)
  | xor  (a b : Byte)
  | shl  (a b : Byte)
  | shr  (a b : Byte)
  | mod  (a b : Byte)
  | not  (a : Byte)
  | cmp  (a b : Byte)
  | push (a : Byte)
  | pop  (a : Byte)
  | call (a : Byte)
  | ret
  | jmp  (a : Byte)
  | jeq  (a : Byte)
  | jne  (a : Byte)
deriving DecidableEq, Repr

end Sys2Proof
end

