-- ==== Sys2Proof/Decode.lean ====
section
/-! DEFINITION. From bytes to instructions and back (30_encoding). Decoding is by the whole opcode byte,
looked up in the dispatch table of R80 (R75); the encoder (R87) is written from the same table. -/

namespace Sys2Proof

/-- Why bytes are no instruction. `illegalOpcode`: the first byte is none of the 20 (R82).
`truncated`: a list of bytes ends inside an instruction (only `decodeBytes` answers it, log 16). -/
inductive DecodeError where
  | illegalOpcode (op : Byte)
  | truncated
deriving DecidableEq, Repr

/-! ### Fields of the opcode byte (R71) -/

/-- `NOPS`, bits 7:6: the operand count (R72). -/
def opcodeNops (op : Byte) : Nat := (op.extractLsb' 6 2).toNat

/-- `len`: the instruction's length in bytes (R72). -/
def opcodeLength (op : Byte) : Nat := opcodeNops op + 1

/-- `SETSPC`, bit 4: the instruction writes `pc` itself (R73). -/
def opcodeSetsPc (op : Byte) : Bool := op.getLsbD 4

/-! ### The dispatch table (R80) -/

/-- A row of the dispatch table: the opcode byte, and the instruction it makes of the two fetched
operand bytes. An operand byte that the format leaves out is ignored (R76, R79). -/
structure OpcodeRow where
  opcode : Byte
  build  : Byte → Byte → Instr

/-- R80, first half: the engine's own instructions and the ALU. -/
def opcodeRowsAlu : List OpcodeRow :=
  [ ⟨Config.OPC_HLT, fun _ _ => .hlt⟩,   ⟨Config.OPC_LDI, fun a b => .ldi a b⟩,
    ⟨Config.OPC_PRN, fun a _ => .prn a⟩, ⟨Config.OPC_ADD, fun a b => .add a b⟩,
    ⟨Config.OPC_MUL, fun a b => .mul a b⟩, ⟨Config.OPC_AND, fun a b => .and a b⟩,
    ⟨Config.OPC_OR, fun a b => .or a b⟩, ⟨Config.OPC_XOR, fun a b => .xor a b⟩,
    ⟨Config.OPC_SHL, fun a b => .shl a b⟩, ⟨Config.OPC_SHR, fun a b => .shr a b⟩,
    ⟨Config.OPC_MOD, fun a b => .mod a b⟩, ⟨Config.OPC_NOT, fun a _ => .not a⟩,
    ⟨Config.OPC_CMP, fun a b => .cmp a b⟩ ]

/-- R80, second half: the stack and the jumps. -/
def opcodeRowsControl : List OpcodeRow :=
  [ ⟨Config.OPC_PUSH, fun a _ => .push a⟩, ⟨Config.OPC_POP, fun a _ => .pop a⟩,
    ⟨Config.OPC_CALL, fun a _ => .call a⟩, ⟨Config.OPC_RET, fun _ _ => .ret⟩,
    ⟨Config.OPC_JMP, fun a _ => .jmp a⟩, ⟨Config.OPC_JEQ, fun a _ => .jeq a⟩,
    ⟨Config.OPC_JNE, fun a _ => .jne a⟩ ]

/-- The dispatch table of R80, whole. -/
def opcodeTable : List OpcodeRow := opcodeRowsAlu ++ opcodeRowsControl

/-! ### Decoding -/

/-- Dispatch (R75, R103): the opcode byte is looked up, whole; a byte with no row is refused by name.
`a` and `b` are the two bytes fetched after it. -/
def decode (op a b : Byte) : Except DecodeError Instr :=
  match opcodeTable.find? (fun r => r.opcode == op) with
  | some r => .ok (r.build a b)
  | none   => .error (.illegalOpcode op)

/-- Decode the first instruction of a byte sequence and answer the bytes after it (R84: a walker steps
by `len`). -/
def decodeBytes : List Byte → Except DecodeError (Instr × List Byte)
  | [] => .error .truncated
  | op :: rest =>
    match decode op (rest.getD 0 0) (rest.getD 1 0) with
    | .error e => .error e
    | .ok i =>
      if rest.length < opcodeNops op then .error .truncated
      else .ok (i, rest.drop (opcodeNops op))

/-! ### Encoding (R87) -/

namespace Instr

/-- The opcode byte of R80. -/
def opcode : Instr → Byte
  | .hlt     => Config.OPC_HLT
  | .ldi _ _ => Config.OPC_LDI
  | .prn _   => Config.OPC_PRN
  | .add _ _ => Config.OPC_ADD
  | .mul _ _ => Config.OPC_MUL
  | .and _ _ => Config.OPC_AND
  | .or _ _  => Config.OPC_OR
  | .xor _ _ => Config.OPC_XOR
  | .shl _ _ => Config.OPC_SHL
  | .shr _ _ => Config.OPC_SHR
  | .mod _ _ => Config.OPC_MOD
  | .not _   => Config.OPC_NOT
  | .cmp _ _ => Config.OPC_CMP
  | .push _  => Config.OPC_PUSH
  | .pop _   => Config.OPC_POP
  | .call _  => Config.OPC_CALL
  | .ret     => Config.OPC_RET
  | .jmp _   => Config.OPC_JMP
  | .jeq _   => Config.OPC_JEQ
  | .jne _   => Config.OPC_JNE

/-- The operand bytes, in memory order (R76). -/
def operands : Instr → List Byte
  | .hlt | .ret => []
  | .prn a | .not a | .push a | .pop a | .call a | .jmp a | .jeq a | .jne a => [a]
  | .ldi a b | .add a b | .mul a b | .and a b | .or a b | .xor a b | .shl a b | .shr a b
  | .mod a b | .cmp a b => [a, b]

end Instr

/-- R87: the opcode byte, then the operand bytes; nothing else, no padding. -/
def encode (i : Instr) : List Byte := i.opcode :: i.operands

/-! ### The host's numbering of an instruction's bits -/

/-- Byte `k` of an instruction whose bits are `w`, of which the first `nbits` are given and the rest
are 0: byte 0 is the opcode, at the lowest address (R53, R70). -/
def tableByte (nbits w k : Nat) : Byte := BitVec.ofNat 8 (w % 2 ^ nbits / 256 ^ k)

/-- What the decoder reads from an instruction whose bits are `w`. -/
def decodeTableWord (nbits w : Nat) : Option Instr :=
  match decode (tableByte nbits w 0) (tableByte nbits w 1) (tableByte nbits w 2) with
  | .ok i    => some i
  | .error _ => none

end Sys2Proof
end

