-- ==== Sys2Proof/Machine/State.lean ====
section
/-! DEFINITION. The state of the engine (10_state R20), as plain data, and its reset value (R38). -/

namespace Sys2Proof.Machine

/-- The four values of the flag register (R29). -/
inductive Flag where
  | equal | greater | less | unset
deriving DecidableEq, Repr

/-- The run state (R32). `halted` and `faulted` are terminal (R100). -/
inductive RunState where
  | running | halted | faulted
deriving DecidableEq, Repr

/-- The error names of 60_exceptions R200, in the order of their codes. -/
inductive ErrorName where
  | outOfRange | illegalOpcode | divisionByZero | unsupportedAluOp | malformedProgram
deriving DecidableEq, Repr

/-- What `cause` records of a fault (R201). The stack form's number is the value `sp` would have
taken, -1 or 256, so it is an integer. -/
inductive Cause where
  | outOfRangeMemory (addr : Nat)
  | outOfRangeRegister (i : Byte)
  | outOfRangeStack (v : Int)
  | illegalOpcode (op : Byte) (addr : Nat)
deriving DecidableEq, Repr

/-- An event of the diagnostic stream `diag` (R36). -/
inductive Diag where
  | divisionByZero
deriving DecidableEq, Repr

/-- The memory array (R34) as a list of cells in one canonical form: addresses strictly rising, none
equal to what an unlisted cell reads as (log 14). Its operations are in Machine/Ops.lean. -/
abbrev Memory := List Host.Cell

/-- The engine's state: R20's seven entries and the two output streams of R36. -/
structure State where
  /-- `x[0]` to `x[7]` (R21). -/
  regs  : Vector Byte 8
  /-- The program counter, an integer that never wraps (R24 to R26; log 6). -/
  pc    : Nat
  /-- The stack pointer, 0 to 255 (R27, R28; log 5). -/
  sp    : Byte
  /-- The flag register (R29). -/
  fl    : Flag
  /-- The run state (R32). -/
  run   : RunState
  /-- The fault cause (R33). -/
  cause : Option Cause
  /-- The memory array (R34). -/
  mem   : Memory
  /-- The stream `out`, oldest first: the byte of each `Out(v)` (R36). -/
  out   : List Byte
  /-- The stream `diag`, oldest first (R36). -/
  diag  : List Diag
deriving DecidableEq, Repr

/-- Reasons for a step to stop outside the machine's own states. The spec's fatal errors are NOT
here: R209 gives their effect on the state (`run`, `cause`), so they are next states (log 7). -/
inductive Fault where
  /-- CA's `UnsupportedAluOp`, "kept as a defensive fatal case" (R206). Nobody raises it: no
  transition leads to it. Safe. -/
  | unsupportedAluOp
deriving DecidableEq, Repr

/-- Reasons to refuse an instruction. -/
inductive Refusal where
  /-- An instruction that has no meaning in the model yet. Raised only by an arm of `exec` that names
  its instruction; at present by none. Safe. -/
  | notModelled (mnemonic : String)
deriving DecidableEq, Repr

/-- The state after reset (R38, R230): every value is the spec's. -/
def State.reset : State where
  regs  := #v[0, 0, 0, 0, 0, 0, 0, Config.SP_SEED]
  pc    := Config.PC_RESET
  sp    := Config.SP_SEED
  fl    := .unset
  run   := .running
  cause := none
  mem   := []
  out   := []
  diag  := []

end Sys2Proof.Machine
end

