-- ==== Sys2Proof/Machine/Ops.lean ====
section
/-! DEFINITION. The named operations over memory, the stack, the streams and the run state that every
meaning is made of: R11 to R14, R104, R105, R160, R209, and the host's load (R65).
An operation that can raise a fault answers `Except Cause`; what a fault does to the state is said
once, in `raise` and `finish`. -/

namespace Sys2Proof.Machine

open Host (Outcome)

/-! ### One named update per field -/

namespace State

def setRegs (s : State) (v : Vector Byte 8) : State := { s with regs := v }
def setPc (s : State) (v : Nat) : State := { s with pc := v }
def setSp (s : State) (v : Byte) : State := { s with sp := v }
def setFl (s : State) (v : Flag) : State := { s with fl := v }
def setRun (s : State) (v : RunState) : State := { s with run := v }
def setCause (s : State) (v : Option Cause) : State := { s with cause := v }
def setMem (s : State) (v : Memory) : State := { s with mem := v }
def setOut (s : State) (v : List Byte) : State := { s with out := v }
def setDiag (s : State) (v : List Diag) : State := { s with diag := v }

end State

/-- `trunc8`: the low 8 bits of a number (R9). -/
def trunc8 (n : Nat) : Byte := BitVec.ofNat 8 n

/-! ### The memory array -/

namespace Memory

/-- What an unlisted cell reads as: memory is "zero-initialized at startup" (R34). -/
def unlisted : Byte := 0

/-- The byte at an address. -/
def read : Memory → Nat → Byte
  | [], _ => unlisted
  | (k, v) :: rest, a => if k = a then v else read rest a

/-- Put `(a, v)` into a rising list, leaving out a value that an unlisted cell has anyway. -/
def cons (a : Nat) (v : Byte) (m : Memory) : Memory := if v = unlisted then m else (a, v) :: m

/-- The memory with the byte at one address changed, in canonical form. -/
def write : Memory → Nat → Byte → Memory
  | [], a, v => cons a v []
  | (k, u) :: rest, a, v =>
    if a < k then cons a v ((k, u) :: rest)
    else if a = k then cons a v rest
    else (k, u) :: write rest a v

/-- Consecutive bytes from an address on. -/
def writeBlock : Memory → Nat → List Byte → Memory
  | m, _, [] => m
  | m, a, v :: vs => writeBlock (write m a v) (a + 1) vs

/-- The canonical form, for cells from `low` on: addresses strictly rising and inside the 256 cells
of R34, no entry equal to what an unlisted cell reads as. -/
def wfFrom : Nat → Memory → Bool
  | _, [] => true
  | low, (k, v) :: rest =>
    decide (low ≤ k) && decide (k < Config.MEMSIZE) && decide (v ≠ unlisted) && wfFrom (k + 1) rest

/-- The canonical form. -/
def wf (m : Memory) : Bool := wfFrom 0 m

end Memory

/-- `MemRead(addr, 1)` (R12): a read outside 0 to 255 raises, and has no other effect. -/
def memRead (s : State) (addr : Nat) : Except Cause Byte :=
  if addr < Config.MEMSIZE then .ok (Memory.read s.mem addr) else .error (.outOfRangeMemory addr)

/-- `MemWrite(addr, 1, v)` (R12). -/
def memWrite (s : State) (addr : Nat) (v : Byte) : Except Cause State :=
  if addr < Config.MEMSIZE then .ok (s.setMem (Memory.write s.mem addr v))
  else .error (.outOfRangeMemory addr)

/-! ### The output streams (R14, R36) -/

/-- `emit Out(v)`. -/
def emitOut (s : State) (v : Byte) : State := s.setOut (s.out ++ [v])

/-- `emit Diag(d)`. -/
def emitDiag (s : State) (d : Diag) : State := s.setDiag (s.diag ++ [d])

/-! ### The stack (R160) -/

/-- The address a push stores to: the decremented stack pointer. -/
def pushAddress (s : State) : Nat := (s.sp - 1).toNat

/-- `push_byte(v)`: decrement, then write at the new address. -/
def pushByte (s : State) (v : Byte) : Except Cause State :=
  if s.sp = 0 then .error (.outOfRangeStack (-1))
  else memWrite (s.setSp (s.sp - 1)) (pushAddress s) v

/-- `pop_byte()`: read at the current address, then increment. -/
def popByte (s : State) : Except Cause (Byte × State) :=
  if s.sp = 255 then .error (.outOfRangeStack 256)
  else do
    let v ← memRead s s.sp.toNat
    return (v, s.setSp (s.sp + 1))

/-! ### The end of a cycle -/

/-- Taking a fault (R13, R105, R209): `run` and `cause` change and nothing else does; `pc` still
addresses the instruction that faulted. There is no handler, and no return from it but reset (R210). -/
def raise (c : Cause) (s : State) : State := (s.setRun .faulted).setCause (some c)

/-- Step 5 of the cycle (R104): unless the opcode's bit 4 is set, add the instruction's length to
`pc`, without wrap-around, while the engine is still RUNNING. -/
def autoAdvance (op : Byte) (s : State) : State :=
  if s.run = .running ∧ opcodeSetsPc op = false then s.setPc (s.pc + opcodeLength op) else s

/-- The end of the cycle of instruction `i` that began in `s` and whose action answered `r`: either
step 5 on the action's state, or, for a fault, the state at the start of the cycle with the fault
taken, whatever the action had done (R105, R106). -/
def finish (i : Instr) (s : State) (r : Except Cause State) : Outcome State Fault Refusal :=
  match r with
  | .ok s'   => .next (autoAdvance i.opcode s')
  | .error c => .next (raise c s)

/-! ### Error names and codes (R200, R201) -/

/-- The numeric codes of R200, the spec's own, for a hardware status port (D19). -/
def ErrorName.code : ErrorName → Nat
  | .outOfRange       => 1
  | .illegalOpcode    => 2
  | .divisionByZero   => 3
  | .unsupportedAluOp => 4
  | .malformedProgram => 5

/-- The error a recorded cause is an instance of (R201). -/
def Cause.name : Cause → ErrorName
  | .outOfRangeMemory _ | .outOfRangeRegister _ | .outOfRangeStack _ => .outOfRange
  | .illegalOpcode _ _ => .illegalOpcode

/-! ### The host's load (R65) -/

/-- `load(image)`: an image of more than 256 bytes is refused, and the engine stays as it is; else the
bytes are placed from `LOAD_BASE` on and nothing else changes. It is meant for the time between reset
and the first cycle (R218); the function does not check that (log 13). -/
def load (image : List Byte) (s : State) : Except ErrorName State :=
  if Config.MEMSIZE < image.length then .error .outOfRange
  else .ok (s.setMem (Memory.writeBlock s.mem Config.LOAD_BASE image))

/-- The launch state of an image: reset, then load (R232). -/
def launch (image : List Byte) : Except ErrorName State := load image State.reset

end Sys2Proof.Machine
end

