-- ==== Sys2Proof/Machine/Flags.lean ====
section
/-! DEFINITION. The flag register: what CMP computes (41_alu R142), what JEQ and JNE test (R30), and
the three-bit hardware layout (R31). No other instruction touches it (R141). -/

namespace Sys2Proof.Machine

/-- `sext_8`: the two's-complement reading of a byte (R9). -/
def sext8 (v : Byte) : Int := if v.toNat ≤ 127 then (v.toNat : Int) else (v.toNat : Int) - 256

/-- Whether `va` is the greater: in the two's-complement order, or, with `CMP_SIGNED` off, in the
unsigned one (R142, D12). -/
def isGreater (signed : Bool) (va vb : Byte) : Bool :=
  if signed then decide (sext8 va > sext8 vb) else decide (va.toNat > vb.toNat)

/-- The value CMP gives the flag (R142): never UNSET. -/
def compareFlag (va vb : Byte) : Flag :=
  if va = vb then .equal
  else if isGreater Config.CMP_SIGNED va vb then .greater
  else .less

/-- The test of JEQ; JNE tests the opposite (R30). -/
def flagIsEqual (f : Flag) : Bool := decide (f = .equal)

/-- `fl[2:0] = L G E`: the layout R31 chooses for a hardware realisation (D11). -/
def Flag.bits : Flag → BitVec 3
  | .equal   => 0b001
  | .greater => 0b010
  | .less    => 0b100
  | .unset   => 0b000

end Sys2Proof.Machine
end

