-- ==== Sys2Proof/Machine/Operands.lean ====
section
/-! DEFINITION. The operand forms (30_encoding R77 to R79): a register named by a whole operand byte,
and LDI's immediate. An operand byte that the format leaves out reaches no meaning (R79). -/

namespace Sys2Proof.Machine

/-- Reading `x[i]` (R11): an index above 7 raises. -/
def readReg (s : State) (i : Byte) : Except Cause Byte :=
  if h : i.toNat < 8 then .ok s.regs[i.toNat] else .error (.outOfRangeRegister i)

/-- `x[i] <- v` (R11): an index above 7 raises. -/
def writeReg (s : State) (i : Byte) (v : Byte) : Except Cause State :=
  if h : i.toNat < 8 then .ok (s.setRegs (s.regs.set i.toNat v)) else .error (.outOfRangeRegister i)

/-- The check of a register index that reads nothing: POP makes it before it pops (R162). -/
def checkReg (i : Byte) : Except Cause Unit :=
  if i.toNat < 8 then .ok () else .error (.outOfRangeRegister i)

/-- The immediate of LDI: the whole byte as it stands (R78). -/
def immediate (b : Byte) : Byte := b

end Sys2Proof.Machine
end

