-- ==== Sys2Proof/Machine/Alu.lean ====
section
/-! DEFINITION. The ALU and compare instructions (41_alu). Arithmetic is on unbounded numbers, narrowed
by `trunc8` at the end (00_scope R8, R131). -/

namespace Sys2Proof.Machine

open Host (Outcome)

/-! ### The functions of the two-register instructions -/

/-- R132. -/
def aluAdd (va vb : Byte) : Byte := trunc8 (va.toNat + vb.toNat)
/-- R133: the low 8 bits of the product. -/
def aluMul (va vb : Byte) : Byte := trunc8 (va.toNat * vb.toNat)
/-- R134. -/
def aluAnd (va vb : Byte) : Byte := va &&& vb
/-- R135. -/
def aluOr (va vb : Byte) : Byte := va ||| vb
/-- R136. -/
def aluXor (va vb : Byte) : Byte := va ^^^ vb
/-- R137: the count is the whole byte, not reduced modulo 8 (D13, log 9). -/
def aluShl (va vb : Byte) : Byte := trunc8 (va.toNat * 2 ^ vb.toNat)
/-- R138: logical, the count the whole byte (D13, log 9). -/
def aluShr (va vb : Byte) : Byte := trunc8 (va.toNat / 2 ^ vb.toNat)
/-- R139: the quotient of unsigned floor division, used only with a divisor above 0 (D14, log 10). -/
def aluQuotient (va vb : Byte) : Byte := trunc8 (va.toNat / vb.toNat)
/-- R140. -/
def aluNot (va : Byte) : Byte := ~~~va

/-! ### The shared actions -/

/-- R130: both sources are read, `a` first, before `x[a]` is written. -/
def aluAction (f : Byte → Byte → Byte) (a b : Byte) (s : State) : Except Cause State := do
  let va ← readReg s a
  let vb ← readReg s b
  writeReg s a (f va vb)

/-- R139: with a divisor of 0 a diagnostic is emitted and no register is written. -/
def modAction (a b : Byte) (s : State) : Except Cause State := do
  let va ← readReg s a
  let vb ← readReg s b
  if vb = 0 then return emitDiag s .divisionByZero
  else writeReg s a (aluQuotient va vb)

/-- R140. -/
def notAction (a : Byte) (s : State) : Except Cause State := do
  let va ← readReg s a
  writeReg s a (aluNot va)

/-- R142. -/
def cmpAction (a b : Byte) (s : State) : Except Cause State := do
  let va ← readReg s a
  let vb ← readReg s b
  return s.setFl (compareFlag va vb)

/-! ### The meanings -/

/-- ADD rA, rB (R132). -/
def execAdd (a b : Byte) (s : State) : Outcome State Fault Refusal :=
  finish (.add a b) s (aluAction aluAdd a b s)

/-- MUL rA, rB (R133). -/
def execMul (a b : Byte) (s : State) : Outcome State Fault Refusal :=
  finish (.mul a b) s (aluAction aluMul a b s)

/-- AND rA, rB (R134). -/
def execAnd (a b : Byte) (s : State) : Outcome State Fault Refusal :=
  finish (.and a b) s (aluAction aluAnd a b s)

/-- OR rA, rB (R135). -/
def execOr (a b : Byte) (s : State) : Outcome State Fault Refusal :=
  finish (.or a b) s (aluAction aluOr a b s)

/-- XOR rA, rB (R136). -/
def execXor (a b : Byte) (s : State) : Outcome State Fault Refusal :=
  finish (.xor a b) s (aluAction aluXor a b s)

/-- SHL rA, rB (R137). -/
def execShl (a b : Byte) (s : State) : Outcome State Fault Refusal :=
  finish (.shl a b) s (aluAction aluShl a b s)

/-- SHR rA, rB (R138). -/
def execShr (a b : Byte) (s : State) : Outcome State Fault Refusal :=
  finish (.shr a b) s (aluAction aluShr a b s)

/-- MOD rA, rB (R139): despite its name, the quotient (C7). -/
def execMod (a b : Byte) (s : State) : Outcome State Fault Refusal :=
  finish (.mod a b) s (modAction a b s)

/-- NOT rA (R140). -/
def execNot (a : Byte) (s : State) : Outcome State Fault Refusal :=
  finish (.not a) s (notAction a s)

/-- CMP rA, rB (R142). -/
def execCmp (a b : Byte) (s : State) : Outcome State Fault Refusal :=
  finish (.cmp a b) s (cmpAction a b s)

end Sys2Proof.Machine
end

