-- ==== Sys2Proof/Machine/Engine.lean ====
section
/-! DEFINITION. The meanings of HLT, LDI and PRN (40_engine_cycle R110 to R112). A meaning is the whole
of a cycle after decode: the handler of the instruction's rule, then step 5 or the fault (`finish`). -/

namespace Sys2Proof.Machine

open Host (Outcome)

/-- HLT's action (R110): the engine is HALTED; `pc` stays, unless `HLT_ADVANCES` is set (D2, log 2). -/
def haltAction (s : State) : State :=
  (s.setPc (if Config.HLT_ADVANCES then s.pc + 1 else s.pc)).setRun .halted

/-- HLT (R110). -/
def execHlt (s : State) : Outcome State Fault Refusal := finish .hlt s (.ok (haltAction s))

/-- LDI rA, imm8 (R111). -/
def execLdi (a imm : Byte) (s : State) : Outcome State Fault Refusal :=
  finish (.ldi a imm) s (writeReg s a (immediate imm))

/-- PRN rA (R112). -/
def execPrn (a : Byte) (s : State) : Outcome State Fault Refusal :=
  finish (.prn a) s (do
    let v ← readReg s a
    return emitOut s v)

end Sys2Proof.Machine
end

