-- ==== Sys2Proof/Machine/Jumps.lean ====
section
/-! DEFINITION. The jumps (43_jumps): register-indirect and absolute. Each assigns `pc` on every path
(R180); the register is read only when the jump is taken (R182, R183; D24, log 12). -/

namespace Sys2Proof.Machine

open Host (Outcome)

/-- `pc <- x[a]` if the jump is taken, else the address after the two-byte jump. -/
def jumpAction (taken : Bool) (a : Byte) (s : State) : Except Cause State :=
  if taken then do
    let t ← readReg s a
    return s.setPc t.toNat
  else .ok (s.setPc (s.pc + 2))

/-- JMP rA (R181). -/
def execJmp (a : Byte) (s : State) : Outcome State Fault Refusal :=
  finish (.jmp a) s (jumpAction true a s)

/-- JEQ rA (R182). -/
def execJeq (a : Byte) (s : State) : Outcome State Fault Refusal :=
  finish (.jeq a) s (jumpAction (flagIsEqual s.fl) a s)

/-- JNE rA (R183). -/
def execJne (a : Byte) (s : State) : Outcome State Fault Refusal :=
  finish (.jne a) s (jumpAction (!flagIsEqual s.fl) a s)

end Sys2Proof.Machine
end

