-- ==== Sys2Proof/Machine/Stack.lean ====
section
/-! DEFINITION. The stack and subroutine instructions (42_stack). The register index is checked before
the stack pointer (R105, C9). -/

namespace Sys2Proof.Machine

open Host (Outcome)

/-- R161. -/
def pushAction (a : Byte) (s : State) : Except Cause State := do
  let v ← readReg s a
  pushByte s v

/-- R162. -/
def popAction (a : Byte) (s : State) : Except Cause State := do
  checkReg a
  let (v, s') ← popByte s
  writeReg s' a v

/-- The return address CALL pushes: the address after the two-byte CALL, one byte (R163). A cycle has
passed the fetch check, so `pc + 2` is at most 255. Only with `FETCH_OVERREAD_CHECKED` off can a CALL
run at 254; the spec does not say what it would push there, and `trunc8` makes it 0 (DESIGN CHOICE,
log 3, unsafe under that setting). -/
def returnAddress (s : State) : Byte := trunc8 (s.pc + 2)

/-- R163. -/
def callAction (a : Byte) (s : State) : Except Cause State := do
  let t ← readReg s a
  let s' ← pushByte s (returnAddress s)
  return s'.setPc t.toNat

/-- R164. -/
def retAction (s : State) : Except Cause State := do
  let (t, s') ← popByte s
  return s'.setPc t.toNat

/-- PUSH rA (R161). -/
def execPush (a : Byte) (s : State) : Outcome State Fault Refusal :=
  finish (.push a) s (pushAction a s)

/-- POP rA (R162). -/
def execPop (a : Byte) (s : State) : Outcome State Fault Refusal :=
  finish (.pop a) s (popAction a s)

/-- CALL rA (R163). -/
def execCall (a : Byte) (s : State) : Outcome State Fault Refusal :=
  finish (.call a) s (callAction a s)

/-- RET (R164). -/
def execRet (s : State) : Outcome State Fault Refusal :=
  finish .ret s (retAction s)

end Sys2Proof.Machine
end

