-- ==== Sys2Proof/Machine/Fetch.lean ====
section
/-! DEFINITION. Fetch and decode: steps 1 to 4 of the cycle as far as the lookup (40_engine_cycle R101
to R103). -/

namespace Sys2Proof.Machine

/-- The byte `k` places after the opcode `op`. It is read and bounds-checked whatever the instruction
(R101); with `FETCH_OVERREAD_CHECKED` off, a byte that `NOPS` does not count is not checked (D6,
log 3). -/
def fetchOperand (s : State) (op : Byte) (k : Nat) : Except Cause Byte :=
  if Config.FETCH_OVERREAD_CHECKED || decide (k ≤ opcodeNops op) then memRead s (s.pc + k)
  else .ok (Memory.read s.mem (s.pc + k))

/-- Fetch the opcode and two operand bytes, in address order, and look the opcode up. The fault is the
first out-of-range address, or an illegal opcode with its byte and address (R105). -/
def fetchDecode (s : State) : Except Cause Instr := do
  let op ← memRead s s.pc
  let a ← fetchOperand s op 1
  let b ← fetchOperand s op 2
  match decode op a b with
  | .ok i    => .ok i
  | .error _ => .error (.illegalOpcode op s.pc)

/-- The three bytes of a host's table word stored from `addr` on. -/
def storeTableWord (m : Memory) (addr nbits w : Nat) : Memory :=
  Memory.writeBlock m addr [tableByte nbits w 0, tableByte nbits w 1, tableByte nbits w 2]

/-- The address `withFetchWord` places an instruction at: `pc`, or 0 where no instruction can execute
at `pc` (R237; log 15). -/
def fetchWordAddress (s : State) : Nat := if s.pc ≤ 253 then s.pc else 0

end Sys2Proof.Machine
end

