-- ==== Sys2Proof/Machine/Step.lean ====
section
/-! DEFINITION. The cycle as one function (40_engine_cycle R106), a bounded `run` (R107), and the
host's way to place an instruction where the next cycle fetches. -/

namespace Sys2Proof.Machine

open Host (Outcome)

/-- One cycle while RUNNING: fetch and decode, then the instruction, or the fault. In HALTED and
FAULTED nothing happens (R100). -/
def step (s : State) : Outcome State Fault Refusal :=
  match s.run with
  | .running =>
    match fetchDecode s with
    | .ok i    => exec i s
    | .error c => .next (raise c s)
  | .halted | .faulted => .next s

/-- `run` (R107), for at most `k` cycles: `step` while RUNNING. -/
def runFor : Nat → State → Outcome State Fault Refusal
  | 0, s => .next s
  | k + 1, s =>
    match s.run with
    | .running =>
      match step s with
      | .next s'   => runFor k s'
      | .fault f   => .fault f
      | .refused r => .refused r
    | .halted | .faulted => .next s

/-- `s` with an instruction's bytes where the next step fetches: the engine RUNNING with no cause,
`pc` unchanged unless no instruction can execute there (R237; log 15). -/
def State.withFetchWord (s : State) (nbits w : Nat) : State :=
  (((s.setRun .running).setCause none).setPc (fetchWordAddress s)).setMem
    (storeTableWord s.mem (fetchWordAddress s) nbits w)

end Sys2Proof.Machine
end

