-- ==== Sys2Proof/Safety.lean ====
section
/-! DEFINITION. The terms in which claims speak of states and runs. -/

namespace Sys2Proof.Machine

namespace State

/-- The invariant of the machine: memory in canonical form (R34; log 14), `pc` within 0 to 256 (R26),
and a cause recorded exactly when the engine is FAULTED (R33). -/
abbrev Inv (s : State) : Prop :=
  Memory.wf s.mem = true ∧ s.pc ≤ 256 ∧ (s.cause.isSome = true ↔ s.run = .faulted)

/-- The byte at an address, as the model reads it: the form in which a frame speaks of memory. -/
abbrev byteAt (s : State) (addr : Nat) : Byte := Memory.read s.mem addr

/-- The byte in register `r`: the form in which a frame speaks of registers. -/
abbrev reg (s : State) (r : Fin 8) : Byte := s.regs[r]

/-- A run that has ended normally: HALTED (R108). -/
abbrev EndedNormally (s : State) : Prop := s.run = .halted

/-- A run that has ended abnormally: FAULTED (R108, R209). -/
abbrev EndedAbnormally (s : State) : Prop := s.run = .faulted

/-- The state that a fault raised in a cycle that began in `s` leaves (R209). -/
abbrev faultedWith (s : State) (c : Cause) : State := { s with run := .faulted, cause := some c }

/-- From `s` to `t` the run state and the cause either stay, or record a fault (R30 to R33). -/
abbrev KeepsRunOrFaults (s t : State) : Prop :=
  (t.run = s.run ∧ t.cause = s.cause) ∨ ∃ c, t.run = .faulted ∧ t.cause = some c

end State

/-- The operand bytes that an instruction uses as register indices when the flag is `fl`, in the order
in which a cycle checks them (R202 item 2, R208). JEQ and JNE use theirs only when they jump (R182,
R183); LDI's immediate and the bytes a format leaves out are none (R78, R79). -/
def registersUsed (fl : Flag) : Instr → List Byte
  | .hlt | .ret => []
  | .ldi a _ => [a]
  | .prn a | .not a | .push a | .pop a | .call a | .jmp a => [a]
  | .jeq a => if fl = .equal then [a] else []
  | .jne a => if fl = .equal then [] else [a]
  | .add a b | .mul a b | .and a b | .or a b | .xor a b | .shl a b | .shr a b | .mod a b
  | .cmp a b => [a, b]

/-- The states a run can be in: those from a launch state (R232) by cycles. -/
inductive Reachable : State → Prop where
  | launch (image : List Byte) (s : State) : Machine.launch image = .ok s → Reachable s
  | step (s t : State) : Reachable s → Machine.step s = .next t → Reachable t

end Sys2Proof.Machine
end

