-- ==== Sys2Proof/WellFormed.lean ====
section
/-! DEFINITION. What an assembler may emit (30_encoding R87) and what 70_reset_and_hazards R236 asks of
a program: every register operand byte is 0 to 7. The machine does not rely on it: an operand byte
above 7 decodes and its use raises OutOfRange (R77; log 19). -/

namespace Sys2Proof

/-- The byte names one of the eight registers (R21, R77). -/
def isRegister (i : Byte) : Bool := decide (i.toNat < Config.NREG)

namespace Instr

/-- Every register operand names a register; an immediate may be any byte (R78). -/
def wellFormed : Instr → Bool
  | .hlt | .ret => true
  | .ldi a _ => isRegister a
  | .prn a | .not a | .push a | .pop a | .call a | .jmp a | .jeq a | .jne a => isRegister a
  | .add a b | .mul a b | .and a b | .or a b | .xor a b | .shl a b | .shr a b | .mod a b
  | .cmp a b => isRegister a && isRegister b

end Instr
end Sys2Proof
end

