-- ==== Sys2Proof/Certificates/Slice0/Obligations.lean ====
section
/-! DEFINITION. The statements for the provers. A docstring names the rule a statement formalises, and
the decisions (D<n>) or log entries it rests on where the source itself does not settle the point.
Unless a statement says otherwise it holds of every state, reachable or not. Meanings (`exec`) are
stated for RUNNING states, the only ones in which a cycle is executed (R100). -/

open Sys2Proof Sys2Proof.Machine

/-! ### Encoding -/

/-- R80, R81: instruction words written out bit by bit decode to the instructions they stand for. The
values of HLT, LDI, PRN and PUSH are the source's; the others are general knowledge (log 1). -/
def Obligations.WrittenWordsDecode : Prop :=
  decodeBytes [0b00000001] = .ok (.hlt, []) ∧
  decodeBytes [0b10000010, 0b00000000, 0b00001000] = .ok (.ldi 0 8, []) ∧
  decodeBytes [0b01000111, 0b00000000, 0b00000001] = .ok (.prn 0, [1]) ∧
  decodeBytes [0b01000101, 0b00000111] = .ok (.push 7, []) ∧
  decodeBytes [0b10100010, 0b00000000, 0b00000001] = .ok (.mul 0 1, []) ∧
  decodeBytes [0b01101001, 0b00000001] = .ok (.not 1, []) ∧
  decodeBytes [0b10100111, 0b00000000, 0b00000010] = .ok (.cmp 0 2, []) ∧
  decodeBytes [0b01010000, 0b00000001] = .ok (.call 1, []) ∧
  decodeBytes [0b00010001] = .ok (.ret, []) ∧
  decodeBytes [0b01010110, 0b00000011] = .ok (.jne 3, [])

/-- R72: the top two bits of the opcode alone give the operand count and the length; every legal
opcode has length 1, 2 or 3, the number of bytes its encoding has; a byte with both bits set is never
dispatched: fetching one raises IllegalOpcode in place of an instruction. -/
def Obligations.OpcodeLengthFromTopBits : Prop :=
  (∀ op : Byte, opcodeNops op = op.toNat / 64 ∧ opcodeLength op = op.toNat / 64 + 1) ∧
  (∀ (op a b : Byte) (i : Instr), decode op a b = .ok i →
    opcodeLength op ∈ [1, 2, 3] ∧ (encode i).length = opcodeLength op) ∧
  (∀ op a b : Byte, opcodeNops op = 3 → decode op a b = .error (.illegalOpcode op)) ∧
  (∀ s : State, s.pc ≤ 253 → opcodeNops (s.byteAt s.pc) = 3 →
    fetchDecode s = .error (.illegalOpcode (s.byteAt s.pc) s.pc))

/-- R73, R104: the sets-PC bit is bit 4; of the legal opcodes exactly CALL, RET, JMP, JEQ and JNE have
it (values: log 1); where it is 1, step 5 of the cycle adds nothing; where it is 0 and the engine still
runs after the action, `pc` has moved on by the length, and where it is 0 and HLT has halted the engine
or a fault has stopped it, `pc` has not moved (D2, log 2; D4, log 7). -/
def Obligations.SetsPcBitDecidesAutoAdvance : Prop :=
  (∀ op : Byte, opcodeSetsPc op = true ↔ op.toNat / 16 % 2 = 1) ∧
  (∀ i : Instr, opcodeSetsPc i.opcode = true ↔
    i = .ret ∨ ∃ a, i = .call a ∨ i = .jmp a ∨ i = .jeq a ∨ i = .jne a) ∧
  (∀ (op : Byte) (s : State), opcodeSetsPc op = true → autoAdvance op s = s) ∧
  (∀ (i : Instr) (s t : State), opcodeSetsPc i.opcode = false → s.run = .running →
    exec i s = .next t →
      (t.run = .running → t.pc = s.pc + (encode i).length) ∧ (t.run ≠ .running → t.pc = s.pc))

/-- R82: a byte is illegal exactly when it is none of the 20 values of the table (values: log 1). -/
def Obligations.IllegalOpcodesAreTheOthers : Prop :=
  ∀ op a b : Byte, decode op a b = .error (.illegalOpcode op) ↔
    op ∉ [0x01, 0x11, 0x45, 0x46, 0x47, 0x50, 0x54, 0x55, 0x56, 0x69,
          0x82, 0xA0, 0xA2, 0xA4, 0xA7, 0xA8, 0xAA, 0xAB, 0xAC, 0xAD]

/-- R87, R70, R76: decoding undoes encoding, for every instruction with every operand at every value,
and leaves what follows. -/
def Obligations.DecodeInvertsEncode : Prop :=
  ∀ (i : Instr) (rest : List Byte), decodeBytes (encode i ++ rest) = .ok (i, rest)

/-- R75, R79: the other direction. What a byte sequence decodes to encodes to the bytes consumed; so no
two legal encodings of different bytes mean the same instruction. -/
def Obligations.EncodeInvertsDecode : Prop :=
  ∀ (bytes rest : List Byte) (i : Instr), decodeBytes bytes = .ok (i, rest) →
    encode i ++ rest = bytes

/-- The host's placing of an instruction (log 15): the next step runs exactly the instruction that the
decoder reads from the word, in every state whose memory is in canonical form (which `Inv` says and
every step keeps), halted and faulted ones included. -/
def Obligations.PlacedWordIsRunNext : Prop :=
  ∀ (s : State) (nbits w : Nat) (i : Instr), Memory.wf s.mem = true →
    decodeTableWord nbits w = some i →
    step (s.withFetchWord nbits w) = exec i (s.withFetchWord nbits w)

/-! ### The cycle -/

/-- R101 to R103, R106: a cycle that begins at or below 253 with bytes that decode to an instruction is
that instruction's `exec`, which includes the auto-advance of R104; the step adds nothing to it. -/
def Obligations.StepRunsDecodedInstruction : Prop :=
  ∀ (s : State) (i : Instr), s.run = .running → s.pc ≤ 253 →
    decode (s.byteAt s.pc) (s.byteAt (s.pc + 1)) (s.byteAt (s.pc + 2)) = .ok i →
    step s = exec i s

/-- R100: in HALTED and FAULTED a step changes nothing (D22). -/
def Obligations.TerminalStatesStay : Prop :=
  ∀ s : State, s.run ≠ .running → step s = .next s

/-- R106, R206: the step is total. Every state has a next state: no outcome is a fault outside the
machine's own FAULTED, and no instruction is refused. -/
def Obligations.EveryStateHasNext : Prop :=
  (∀ s : State, ∃ t, step s = .next t) ∧ (∀ (i : Instr) (s : State), ∃ t, exec i s = .next t)

/-- R101, R237: a cycle that begins at 254, 255 or 256 raises OutOfRange(memory, 256) before the opcode
is looked at, whatever the bytes (D6, log 3; D4, log 7). -/
def Obligations.FetchBeyondTopFaults : Prop :=
  ∀ s : State, s.run = .running → 254 ≤ s.pc → s.pc ≤ 256 →
    step s = .next (s.faultedWith (.outOfRangeMemory 256))

/-- R103, R203: a cycle that fetches a byte outside the table raises IllegalOpcode with that byte and
its address, and does nothing else (D21; D4, log 7; values: log 1). -/
def Obligations.IllegalOpcodeFaults : Prop :=
  ∀ s : State, s.run = .running → s.pc ≤ 253 →
    s.byteAt s.pc ∉ [0x01, 0x11, 0x45, 0x46, 0x47, 0x50, 0x54, 0x55, 0x56, 0x69,
                     0x82, 0xA0, 0xA2, 0xA4, 0xA7, 0xA8, 0xAA, 0xAB, 0xAC, 0xAD] →
    step s = .next (s.faultedWith (.illegalOpcode (s.byteAt s.pc) s.pc))

/-- R105, R209: a fault is precise. When a running engine faults, its state is that of the start of the
cycle with `run` and `cause` changed and nothing else (D4, log 7). -/
def Obligations.FaultsArePrecise : Prop :=
  ∀ s t : State, s.run = .running → step s = .next t → t.run = .faulted →
    ∃ c, t = s.faultedWith c

/-- R201, R202, R208: every cause a cycle can record, with the condition under which it is recorded and
before which no other is. The register recorded is the first one above 7 that the instruction uses
(`registersUsed`: JEQ and JNE only when they jump); the stack is looked at only when there is none (D3,
D6, D17, D24; logs 3, 5, 7, 12). The premise `pc ≤ 256` is part of `Inv`, which every step keeps
(StepKeepsInvariant). -/
def Obligations.EveryFaultHasItsCause : Prop :=
  ∀ s t : State, s.pc ≤ 256 → s.run = .running → step s = .next t → t.run = .faulted →
    (254 ≤ s.pc ∧ t.cause = some (.outOfRangeMemory 256)) ∨
    (s.pc ≤ 253 ∧ opcodeTable.all (fun row => row.opcode != s.byteAt s.pc) = true ∧
      t.cause = some (.illegalOpcode (s.byteAt s.pc) s.pc)) ∨
    (s.pc ≤ 253 ∧ ∃ i : Instr,
      decode (s.byteAt s.pc) (s.byteAt (s.pc + 1)) (s.byteAt (s.pc + 2)) = .ok i ∧
      ((∃ r : Byte, (registersUsed s.fl i).find? (fun r => decide (8 ≤ r.toNat)) = some r ∧
          t.cause = some (.outOfRangeRegister r)) ∨
        ((∀ r ∈ registersUsed s.fl i, r.toNat < 8) ∧
          ((s.sp = 0 ∧ (∃ a, i = .push a ∨ i = .call a) ∧
              t.cause = some (.outOfRangeStack (-1))) ∨
            (s.sp = 255 ∧ (i = .ret ∨ ∃ a, i = .pop a) ∧
              t.cause = some (.outOfRangeStack 256))))))

/-- R108, R110: HLT is the sole way to HALTED, and it changes nothing else (D2, log 2). -/
def Obligations.HaltedOnlyByHlt : Prop :=
  ∀ s t : State, s.run = .running → step s = .next t → t.run = .halted →
    s.byteAt s.pc = 0x01 ∧ t = { s with run := .halted }

/-- R107: `run` is repeated `step`: a run of one cycle more is a step and then the run; runs compose; and
from a state that is not RUNNING a run of any length stays where it is. -/
def Obligations.RunIsRepeatedStep : Prop :=
  (∀ s : State, runFor 0 s = .next s) ∧
  (∀ (k : Nat) (s t : State), step s = .next t → runFor (k + 1) s = runFor k t) ∧
  (∀ (j k : Nat) (s t : State), runFor j s = .next t → runFor (j + k) s = runFor k t) ∧
  (∀ (k : Nat) (s : State), s.run ≠ .running → runFor k s = .next s)

/-! ### Reset, load and the invariant -/

/-- R38, R230: the reset state, every cell of memory included. Of these values `fl` (D10, log 11),
`run`, `cause` and the streams are the spec's decisions, the rest the source's. -/
def Obligations.ResetValues : Prop :=
  (∀ r : Fin 8, State.reset.reg r = if r.val = 7 then 0xF4 else 0) ∧
  State.reset.pc = 0 ∧ State.reset.sp = 0xF4 ∧ State.reset.fl = .unset ∧
  State.reset.run = .running ∧ State.reset.cause = none ∧
  (∀ a : Nat, State.reset.byteAt a = 0) ∧ State.reset.out = [] ∧ State.reset.diag = []

/-- The invariant holds at reset (R38, R26, R33). That memory is a list in canonical form is the model's
own way to write down 256 cells (log 14); the bound on `pc` is D7 (log 6), the cause D19 (log 7). -/
def Obligations.ResetMeetsInvariant : Prop := State.reset.Inv

/-- R26, R33, R34: every step keeps the invariant: memory in canonical form, `pc` at most 256, a cause
recorded exactly in FAULTED. -/
def Obligations.StepKeepsInvariant : Prop :=
  ∀ s t : State, s.Inv → step s = .next t → t.Inv

/-- R26, R232: every state that any launched image reaches meets the invariant. -/
def Obligations.ReachableStatesMeetInvariant : Prop :=
  ∀ s : State, Reachable s → s.Inv

/-- R65: loading an image of at most 256 bytes puts byte k at address k, leaves the cells above it and
all other state as they were, and keeps the canonical form; a longer image is refused with
OutOfRange (D8, D9, log 13). -/
def Obligations.LoadPlacesImage : Prop :=
  ∀ (image : List Byte) (s : State), s.Inv →
    (image.length ≤ 256 → ∃ t : State, load image s = .ok t ∧ t.Inv ∧
      (∀ (k : Nat) (h : k < image.length), t.byteAt k = image[k]) ∧
      (∀ k : Nat, image.length ≤ k → t.byteAt k = s.byteAt k) ∧
      t = { s with mem := t.mem }) ∧
    (256 < image.length → load image s = .error .outOfRange)

/-! ### What each instruction does -/

/-- R110: HLT halts and leaves everything else, `pc` included (D2, log 2). -/
def Obligations.HltHalts : Prop :=
  ∀ s : State, s.run = .running → exec .hlt s = .next { s with run := .halted }

/-- R111: LDI's encoding, effect and fault. -/
def Obligations.LdiLoadsImmediate : Prop :=
  ∀ (a imm : Byte) (s : State), s.run = .running →
    encode (.ldi a imm) = [0b10000010, a, imm] ∧
    (∀ ha : a.toNat < 8, exec (.ldi a imm) s =
      .next { s with regs := s.regs.set a.toNat imm, pc := s.pc + 3 }) ∧
    (8 ≤ a.toNat → exec (.ldi a imm) s = .next (s.faultedWith (.outOfRangeRegister a)))

/-- R112: PRN appends the register's byte to `out` (D16) and leaves the register. -/
def Obligations.PrnEmitsRegister : Prop :=
  ∀ (a : Byte) (s : State), s.run = .running →
    encode (.prn a) = [0b01000111, a] ∧
    (∀ ha : a.toNat < 8, exec (.prn a) s =
      .next { s with out := s.out ++ [s.regs[a.toNat]], pc := s.pc + 2 }) ∧
    (8 ≤ a.toNat → exec (.prn a) s = .next (s.faultedWith (.outOfRangeRegister a)))

/-- R132, R131: ADD stores the sum modulo 256 in its first register. -/
def Obligations.AddWrapsModulo256 : Prop :=
  ∀ (a b : Byte) (s : State) (ha : a.toNat < 8) (hb : b.toNat < 8), s.run = .running →
    ∃ r : Byte, r.toNat = (s.regs[a.toNat].toNat + s.regs[b.toNat].toNat) % 256 ∧
      exec (.add a b) s = .next { s with regs := s.regs.set a.toNat r, pc := s.pc + 3 }

/-- R133, R131: MUL stores the product modulo 256. -/
def Obligations.MulWrapsModulo256 : Prop :=
  ∀ (a b : Byte) (s : State) (ha : a.toNat < 8) (hb : b.toNat < 8), s.run = .running →
    ∃ r : Byte, r.toNat = (s.regs[a.toNat].toNat * s.regs[b.toNat].toNat) % 256 ∧
      exec (.mul a b) s = .next { s with regs := s.regs.set a.toNat r, pc := s.pc + 3 }

/-- R134 to R136: AND, OR and XOR work bit by bit. -/
def Obligations.BitwiseInstructionsWorkPerBit : Prop :=
  ∀ (a b : Byte) (s : State) (ha : a.toNat < 8) (hb : b.toNat < 8), s.run = .running →
    (∃ r : Byte, (∀ k : Nat, r.getLsbD k =
        (s.regs[a.toNat].getLsbD k && s.regs[b.toNat].getLsbD k)) ∧
      exec (.and a b) s = .next { s with regs := s.regs.set a.toNat r, pc := s.pc + 3 }) ∧
    (∃ r : Byte, (∀ k : Nat, r.getLsbD k =
        (s.regs[a.toNat].getLsbD k || s.regs[b.toNat].getLsbD k)) ∧
      exec (.or a b) s = .next { s with regs := s.regs.set a.toNat r, pc := s.pc + 3 }) ∧
    (∃ r : Byte, (∀ k : Nat, r.getLsbD k =
        (s.regs[a.toNat].getLsbD k ^^ s.regs[b.toNat].getLsbD k)) ∧
      exec (.xor a b) s = .next { s with regs := s.regs.set a.toNat r, pc := s.pc + 3 })

/-- R137: SHL moves bit k to bit k + n for the whole count n, zeros entering below and bits above bit 7
lost; so a count of 8 or more gives 0 (D13, log 9). -/
def Obligations.ShlShiftsByWholeCount : Prop :=
  ∀ (a b : Byte) (s : State) (ha : a.toNat < 8) (hb : b.toNat < 8), s.run = .running →
    ∃ r : Byte, (∀ k : Nat, r.getLsbD k = (decide (k < 8) && decide (s.regs[b.toNat].toNat ≤ k) &&
        s.regs[a.toNat].getLsbD (k - s.regs[b.toNat].toNat))) ∧
      (8 ≤ s.regs[b.toNat].toNat → r = 0) ∧
      exec (.shl a b) s = .next { s with regs := s.regs.set a.toNat r, pc := s.pc + 3 }

/-- R138: SHR moves bit k + n to bit k for the whole count n, zeros entering above; so it is logical,
and a count of 8 or more gives 0 (D13, log 9). -/
def Obligations.ShrShiftsByWholeCount : Prop :=
  ∀ (a b : Byte) (s : State) (ha : a.toNat < 8) (hb : b.toNat < 8), s.run = .running →
    ∃ r : Byte, (∀ k : Nat, r.getLsbD k = s.regs[a.toNat].getLsbD (k + s.regs[b.toNat].toNat)) ∧
      (8 ≤ s.regs[b.toNat].toNat → r = 0) ∧
      exec (.shr a b) s = .next { s with regs := s.regs.set a.toNat r, pc := s.pc + 3 }

/-- R139, R204: MOD stores the quotient q of floor division, unsigned (D14, log 10); with a divisor of
0 it writes no register, appends one diagnostic and goes on (D15, log 10). -/
def Obligations.ModStoresQuotient : Prop :=
  ∀ (a b : Byte) (s : State) (ha : a.toNat < 8) (hb : b.toNat < 8), s.run = .running →
    (s.regs[b.toNat] ≠ 0 → ∃ q : Byte,
      q.toNat * s.regs[b.toNat].toNat ≤ s.regs[a.toNat].toNat ∧
      s.regs[a.toNat].toNat < (q.toNat + 1) * s.regs[b.toNat].toNat ∧
      exec (.mod a b) s = .next { s with regs := s.regs.set a.toNat q, pc := s.pc + 3 }) ∧
    (s.regs[b.toNat] = 0 → exec (.mod a b) s =
      .next { s with diag := s.diag ++ [.divisionByZero], pc := s.pc + 3 })

/-- R140: NOT stores the complement, 255 minus the byte. -/
def Obligations.NotComplements : Prop :=
  ∀ (a : Byte) (s : State) (ha : a.toNat < 8), s.run = .running →
    ∃ r : Byte, r.toNat = 255 - s.regs[a.toNat].toNat ∧
      exec (.not a) s = .next { s with regs := s.regs.set a.toNat r, pc := s.pc + 2 }

/-- R142: CMP sets the flag by the two's-complement order (D12, log 4), never to UNSET, and writes
nothing else. -/
def Obligations.CmpOrdersSigned : Prop :=
  ∀ (a b : Byte) (s : State) (ha : a.toNat < 8) (hb : b.toNat < 8), s.run = .running →
    ∃ f : Flag, exec (.cmp a b) s = .next { s with fl := f, pc := s.pc + 3 } ∧ f ≠ .unset ∧
      (f = .equal ↔ s.regs[a.toNat] = s.regs[b.toNat]) ∧
      (f = .greater ↔ s.regs[b.toNat].toInt < s.regs[a.toNat].toInt) ∧
      (f = .less ↔ s.regs[a.toNat].toInt < s.regs[b.toNat].toInt)

/-- R161: PUSH's encoding, effect and faults: the register check comes first, then the stack pointer's.
The stored byte reads back where memory is in canonical form, which `Inv` says and every step keeps. -/
def Obligations.PushStoresBelowStackPointer : Prop :=
  ∀ (a : Byte) (s : State), s.run = .running →
    encode (.push a) = [0b01000101, a] ∧
    (∀ ha : a.toNat < 8, s.sp ≠ 0 → ∃ t : State, exec (.push a) s = .next t ∧
      t = { s with sp := t.sp, mem := t.mem, pc := s.pc + 2 } ∧
      t.sp.toNat = s.sp.toNat - 1 ∧
      (Memory.wf s.mem = true → t.byteAt (s.sp.toNat - 1) = s.regs[a.toNat]) ∧
      (∀ addr, addr ≠ s.sp.toNat - 1 → t.byteAt addr = s.byteAt addr)) ∧
    (8 ≤ a.toNat → exec (.push a) s = .next (s.faultedWith (.outOfRangeRegister a))) ∧
    (a.toNat < 8 → s.sp = 0 → exec (.push a) s = .next (s.faultedWith (.outOfRangeStack (-1))))

/-- R162: POP loads the byte at the stack pointer and increments it; the cell keeps its byte. -/
def Obligations.PopLoadsFromStackPointer : Prop :=
  ∀ (a : Byte) (s : State) (ha : a.toNat < 8), s.run = .running → s.sp ≠ 255 →
    ∃ p : Byte, p.toNat = s.sp.toNat + 1 ∧ exec (.pop a) s =
      .next { s with regs := s.regs.set a.toNat (s.byteAt s.sp.toNat), sp := p, pc := s.pc + 2 }

/-- R163: CALL pushes the address after itself and goes to the register's value. `pc ≤ 253` is what
the cycle's fetch has checked (R101), so the return address fits a byte. -/
def Obligations.CallPushesReturnAddress : Prop :=
  ∀ (a : Byte) (s : State) (ha : a.toNat < 8), s.run = .running → s.sp ≠ 0 → s.pc ≤ 253 →
    ∃ t : State, exec (.call a) s = .next t ∧
      t = { s with sp := t.sp, mem := t.mem, pc := s.regs[a.toNat].toNat } ∧
      t.sp.toNat = s.sp.toNat - 1 ∧
      (Memory.wf s.mem = true → (t.byteAt (s.sp.toNat - 1)).toNat = s.pc + 2) ∧
      (∀ addr, addr ≠ s.sp.toNat - 1 → t.byteAt addr = s.byteAt addr)

/-- R164: RET goes to the byte at the stack pointer and increments it, whatever put it there. -/
def Obligations.RetPopsProgramCounter : Prop :=
  ∀ s : State, s.run = .running → s.sp ≠ 255 →
    ∃ p : Byte, p.toNat = s.sp.toNat + 1 ∧ exec .ret s =
      .next { s with sp := p, pc := (s.byteAt s.sp.toNat).toNat }

/-- R181: JMP. -/
def Obligations.JmpGoesToRegister : Prop :=
  ∀ (a : Byte) (s : State) (ha : a.toNat < 8), s.run = .running →
    exec (.jmp a) s = .next { s with pc := s.regs[a.toNat].toNat }

/-- R182, R183: JEQ jumps exactly when the flag is EQUAL and JNE exactly when it is not; the other path
goes on after the two-byte jump and does not look at the register operand, so it is taken for any
operand byte (D24, log 12). -/
def Obligations.ConditionalJumpsTestEqual : Prop :=
  ∀ (a : Byte) (s : State), s.run = .running →
    (∀ ha : a.toNat < 8,
      (s.fl = .equal → exec (.jeq a) s = .next { s with pc := s.regs[a.toNat].toNat }) ∧
      (s.fl ≠ .equal → exec (.jne a) s = .next { s with pc := s.regs[a.toNat].toNat })) ∧
    (s.fl ≠ .equal → exec (.jeq a) s = .next { s with pc := s.pc + 2 }) ∧
    (s.fl = .equal → exec (.jne a) s = .next { s with pc := s.pc + 2 })

/-! ### Where instructions fault -/

/-- R202, R208: a first register operand above 7 faults in every instruction that uses it, before the
second operand and the stack pointer are looked at; JEQ and JNE only when taken (D17, D24, log 12). -/
def Obligations.FirstRegisterIndexFaults : Prop :=
  ∀ (a b : Byte) (s : State), 8 ≤ a.toNat →
    (∀ i ∈ [Instr.ldi a b, .prn a, .add a b, .mul a b, .and a b, .or a b, .xor a b, .shl a b,
        .shr a b, .mod a b, .not a, .cmp a b, .push a, .pop a, .call a, .jmp a],
      exec i s = .next (s.faultedWith (.outOfRangeRegister a))) ∧
    (s.fl = .equal → exec (.jeq a) s = .next (s.faultedWith (.outOfRangeRegister a))) ∧
    (s.fl ≠ .equal → exec (.jne a) s = .next (s.faultedWith (.outOfRangeRegister a)))

/-- R130, R202, R208: a second register operand above 7 faults when the first is in range (D17). -/
def Obligations.SecondRegisterIndexFaults : Prop :=
  ∀ (a b : Byte) (s : State), a.toNat < 8 → 8 ≤ b.toNat →
    ∀ i ∈ [Instr.add a b, .mul a b, .and a b, .or a b, .xor a b, .shl a b, .shr a b, .mod a b,
        .cmp a b],
      exec i s = .next (s.faultedWith (.outOfRangeRegister b))

/-- R160, R202: the stack pointer does not leave 0 to 255: the instruction that would take it outside
faults with the value it would have had (D3, log 5). -/
def Obligations.StackPointerRangeFaults : Prop :=
  ∀ (a : Byte) (s : State), a.toNat < 8 →
    (s.sp = 0 → exec (.push a) s = .next (s.faultedWith (.outOfRangeStack (-1))) ∧
      exec (.call a) s = .next (s.faultedWith (.outOfRangeStack (-1)))) ∧
    (s.sp = 255 → exec (.pop a) s = .next (s.faultedWith (.outOfRangeStack 256)) ∧
      exec .ret s = .next (s.faultedWith (.outOfRangeStack 256)))

/-- R236, R87: an instruction whose register operands name registers records no register fault. -/
def Obligations.WellFormedNeverFaultsOnRegister : Prop :=
  ∀ (i : Instr) (s t : State) (r : Byte), i.wellFormed = true → s.cause = none →
    exec i s = .next t → t.cause ≠ some (.outOfRangeRegister r)

/-! ### Frames -/

/-- R22, R130, R141, R204: ADD, MUL, AND, OR, XOR, SHL, SHR, MOD and NOT change no register but the
first operand's, no flag, no byte of memory, not the stack pointer and not `out`; only MOD adds to
`diag`. -/
def Obligations.AluFrame : Prop :=
  ∀ (a b : Byte) (s t : State), ∀ i ∈ [Instr.add a b, .mul a b, .and a b, .or a b, .xor a b, .shl a b,
      .shr a b, .mod a b, .not a], exec i s = .next t →
    (∀ r : Fin 8, r.val ≠ a.toNat → t.reg r = s.reg r) ∧ t.sp = s.sp ∧ t.fl = s.fl ∧
    (∀ addr, t.byteAt addr = s.byteAt addr) ∧ t.out = s.out ∧
    (t.diag = s.diag ∨ (i = .mod a b ∧ t.diag = s.diag ++ [.divisionByZero])) ∧
    s.KeepsRunOrFaults t

/-- R142, R180: CMP, JMP, JEQ and JNE change no register, no byte of memory, not the stack pointer and
neither stream; the jumps leave the flag too. -/
def Obligations.CompareAndJumpFrame : Prop :=
  ∀ (a b : Byte) (s t : State), ∀ i ∈ [Instr.cmp a b, .jmp a, .jeq a, .jne a], exec i s = .next t →
    t.regs = s.regs ∧ t.sp = s.sp ∧ (i ≠ .cmp a b → t.fl = s.fl) ∧
    (∀ addr, t.byteAt addr = s.byteAt addr) ∧ t.out = s.out ∧ t.diag = s.diag ∧
    s.KeepsRunOrFaults t

/-- R110 to R112: HLT, LDI and PRN change no register but LDI's, no flag, no byte of memory, not the
stack pointer and not `diag`; only PRN adds to `out`, and only HLT halts. -/
def Obligations.HltLdiPrnFrame : Prop :=
  ∀ (a imm : Byte) (s t : State), ∀ i ∈ [Instr.hlt, .ldi a imm, .prn a], exec i s = .next t →
    (∀ r : Fin 8, (i = .ldi a imm ∧ r.val = a.toNat) ∨ t.reg r = s.reg r) ∧
    t.sp = s.sp ∧ t.fl = s.fl ∧ (∀ addr, t.byteAt addr = s.byteAt addr) ∧
    (i ≠ .prn a → t.out = s.out) ∧ s.out <+: t.out ∧ t.diag = s.diag ∧
    (s.KeepsRunOrFaults t ∨ (i = .hlt ∧ t.run = .halted ∧ t.cause = s.cause))

/-- R160, R161, R163: PUSH and CALL store one byte, at `pushAddress`, and change no register, no flag
and neither stream. -/
def Obligations.PushAndCallFrame : Prop :=
  ∀ (a : Byte) (s t : State), ∀ i ∈ [Instr.push a, .call a], exec i s = .next t →
    t.regs = s.regs ∧ t.fl = s.fl ∧
    (∀ addr, addr ≠ pushAddress s → t.byteAt addr = s.byteAt addr) ∧
    (t.sp = s.sp ∨ t.sp.toNat = pushAddress s) ∧
    t.out = s.out ∧ t.diag = s.diag ∧ s.KeepsRunOrFaults t

/-- R162, R164: POP and RET store nothing, and change no register but POP's, no flag and neither
stream. -/
def Obligations.PopAndRetFrame : Prop :=
  ∀ (a : Byte) (s t : State), ∀ i ∈ [Instr.pop a, .ret], exec i s = .next t →
    (∀ r : Fin 8, (i = .pop a ∧ r.val = a.toNat) ∨ t.reg r = s.reg r) ∧ t.fl = s.fl ∧
    (∀ addr, t.byteAt addr = s.byteAt addr) ∧ t.out = s.out ∧ t.diag = s.diag ∧
    (t.sp = s.sp ∨ t.sp = s.sp + 1) ∧ s.KeepsRunOrFaults t

/-! ### Rules about the whole machine -/

/-- R29: the flag is set only by CMP, and persists through every other cycle; and it is read only by
the conditional jumps. Run with another flag, an instruction that is neither a jump on the flag nor CMP
does the same and keeps that flag; CMP ends in the very same state, its new flag included, unless it
faults on a register index and so keeps the flag it was given. -/
def Obligations.FlagSetByCompareReadByJumps : Prop :=
  (∀ s t : State, step s = .next t → t.fl ≠ s.fl → ∃ a b, fetchDecode s = .ok (.cmp a b)) ∧
  (∀ (i : Instr) (s t : State) (f : Flag), (∀ a b, i ≠ .jeq a ∧ i ≠ .jne a ∧ i ≠ .cmp a b) →
    exec i s = .next t → exec i { s with fl := f } = .next { t with fl := f }) ∧
  (∀ (a b : Byte) (s t : State) (f : Flag), exec (.cmp a b) s = .next t →
    exec (.cmp a b) { s with fl := f } =
      .next (if a.toNat < 8 ∧ b.toNat < 8 then t else { t with fl := f }))

/-- R141: ADD, MUL, AND, OR, XOR, SHL, SHR, MOD and NOT neither read nor write the flag. -/
def Obligations.AluIgnoresFlag : Prop :=
  ∀ (a b : Byte) (s : State), ∀ i ∈ [Instr.add a b, .mul a b, .and a b, .or a b, .xor a b, .shl a b,
      .shr a b, .mod a b, .not a],
    ∃ t : State, exec i s = .next t ∧ t.fl = s.fl ∧
      ∀ f : Flag, exec i { s with fl := f } = .next { t with fl := f }

/-- R30: no instruction tells GREATER, LESS and UNSET apart. Two states that differ only in which of
them the flag holds step to states that again differ at most so (and agree on whether the flag is
EQUAL). -/
def Obligations.OnlyEqualityOfFlagMatters : Prop :=
  ∀ (s : State) (f : Flag), s.fl ≠ .equal → f ≠ .equal →
    ∃ (t : State) (g : Flag), step s = .next t ∧ step { s with fl := f } = .next { t with fl := g } ∧
      (g = .equal ↔ t.fl = .equal)

/-- R27: only PUSH and CALL (by -1) and POP and RET (by +1) move the stack pointer. -/
def Obligations.StackPointerMovers : Prop :=
  ∀ s t : State, step s = .next t → t.sp ≠ s.sp →
    ((∃ a, fetchDecode s = .ok (.push a) ∨ fetchDecode s = .ok (.call a)) ∧
      t.sp.toNat + 1 = s.sp.toNat) ∨
    ((fetchDecode s = .ok .ret ∨ ∃ a, fetchDecode s = .ok (.pop a)) ∧ t.sp.toNat = s.sp.toNat + 1)

/-- R23, R27, R238: the stack pointer is separate from the register file: what the registers hold,
register 7 included, has no bearing on what a step does to it (D23). -/
def Obligations.StackPointerIgnoresRegisters : Prop :=
  ∀ (s t : State) (v : Vector Byte 8), step s = .next t →
    ∃ t' : State, step { s with regs := v } = .next t' ∧ t'.sp = t.sp

/-- R34, R51: during a run memory is written only by PUSH and CALL, one cell each, at the decremented
stack pointer. -/
def Obligations.MemoryWriters : Prop :=
  ∀ (s t : State) (addr : Nat), step s = .next t → t.byteAt addr ≠ s.byteAt addr →
    addr = s.sp.toNat - 1 ∧ s.sp ≠ 0 ∧
    ∃ a, fetchDecode s = .ok (.push a) ∨ fetchDecode s = .ok (.call a)

/-- R22: the only writers of a register, and only of the one their first operand names. -/
def Obligations.RegisterWriters : Prop :=
  ∀ (s t : State) (r : Fin 8), step s = .next t → t.reg r ≠ s.reg r →
    ∃ (a b : Byte) (i : Instr), fetchDecode s = .ok i ∧ a.toNat = r.val ∧
      i ∈ [Instr.ldi a b, .add a b, .mul a b, .and a b, .or a b, .xor a b, .shl a b, .shr a b,
        .mod a b, .not a, .pop a]

/-- R36: the streams are append-only; `out` grows only by PRN, by its register's byte, and `diag` only
by MOD with a divisor of 0 (D15). -/
def Obligations.StreamWriters : Prop :=
  ∀ s t : State, step s = .next t →
    (t.out = s.out ∨ ∃ (a : Byte) (ha : a.toNat < 8), fetchDecode s = .ok (.prn a) ∧
      t.out = s.out ++ [s.regs[a.toNat]]) ∧
    (t.diag = s.diag ∨ ∃ (a b : Byte) (hb : b.toNat < 8), fetchDecode s = .ok (.mod a b) ∧
      s.regs[b.toNat] = 0 ∧ t.diag = s.diag ++ [.divisionByZero])

/-- R63, R235: a pushed byte is seen by the very next fetch. After PUSH, a state with that memory whose
`pc` is the pushed cell decodes the pushed byte: it runs the instruction that byte begins, or raises
IllegalOpcode with it. -/
def Obligations.PushedByteIsFetched : Prop :=
  ∀ (a : Byte) (s t u : State) (ha : a.toNat < 8), s.Inv → s.run = .running → s.sp ≠ 0 →
    exec (.push a) s = .next t → u.mem = t.mem → u.pc = pushAddress s → u.pc ≤ 253 →
    u.run = .running →
    (∀ i, decode s.regs[a.toNat] (u.byteAt (u.pc + 1)) (u.byteAt (u.pc + 2)) = .ok i →
      step u = exec i u) ∧
    (∀ e, decode s.regs[a.toNat] (u.byteAt (u.pc + 1)) (u.byteAt (u.pc + 2)) = .error e →
      step u = .next (u.faultedWith (.illegalOpcode s.regs[a.toNat] u.pc)))

/-- R165: PUSH and then POP copies the register and restores the stack pointer; into the same register
it leaves the registers as they were. -/
def Obligations.PushPopCopies : Prop :=
  ∀ (a b : Byte) (s : State) (ha : a.toNat < 8) (hb : b.toNat < 8), s.Inv → s.run = .running →
    s.sp ≠ 0 → ∃ t u : State, exec (.push a) s = .next t ∧ exec (.pop b) t = .next u ∧
      u.regs = s.regs.set b.toNat s.regs[a.toNat] ∧ (a = b → u.regs = s.regs) ∧
      u.sp = s.sp ∧ u.pc = s.pc + 4

/-- R166: a RET that finds the stack pointer and the byte at it as CALL left them, whatever ran in
between, resumes two bytes after the CALL with the stack pointer as before it. -/
def Obligations.CallRetResumes : Prop :=
  ∀ (a : Byte) (s t u : State), a.toNat < 8 → s.Inv → s.run = .running → s.sp ≠ 0 → s.pc ≤ 253 →
    exec (.call a) s = .next t → u.run = .running → u.sp = t.sp →
    u.byteAt u.sp.toNat = t.byteAt t.sp.toNat →
    exec .ret u = .next { u with sp := s.sp, pc := s.pc + 2 }

/-- R143: after CMP, as long as no other CMP has changed the flag, JEQ jumps exactly when the two
registers were equal at CMP time, and JNE exactly when they were not, whatever the registers hold by
then. -/
def Obligations.JumpsFollowEarlierCompare : Prop :=
  ∀ (a b j : Byte) (s t u : State) (ha : a.toNat < 8) (hb : b.toNat < 8) (hj : j.toNat < 8),
    s.run = .running → exec (.cmp a b) s = .next t → u.fl = t.fl → u.run = .running →
    exec (.jeq j) u = .next { u with pc :=
      if s.regs[a.toNat] = s.regs[b.toNat] then u.regs[j.toNat].toNat else u.pc + 2 } ∧
    exec (.jne j) u = .next { u with pc :=
      if s.regs[a.toNat] = s.regs[b.toNat] then u.pc + 2 else u.regs[j.toNat].toNat }

/-- R31, R200: the three-bit layout of the flag (D11) and the numeric error codes (D19), both the
spec's own (log 22). -/
def Obligations.FlagBitsAndErrorCodes : Prop :=
  (Flag.bits .equal = 0b001 ∧ Flag.bits .greater = 0b010 ∧ Flag.bits .less = 0b100 ∧
    Flag.bits .unset = 0b000) ∧
  (ErrorName.code .outOfRange = 1 ∧ ErrorName.code .illegalOpcode = 2 ∧
    ErrorName.code .divisionByZero = 3 ∧ ErrorName.code .unsupportedAluOp = 4 ∧
    ErrorName.code .malformedProgram = 5) ∧
  (∀ (n : Nat) (r : Byte) (v : Int), Cause.name (.outOfRangeMemory n) = .outOfRange ∧
    Cause.name (.outOfRangeRegister r) = .outOfRange ∧
    Cause.name (.outOfRangeStack v) = .outOfRange ∧
    Cause.name (.illegalOpcode r n) = .illegalOpcode)
end

