-- ==== Sys2Proof/Laws/PerInstr.lean ====
section
/-! SUPPORT. Facts about every instruction as data, one lemma per constructor. -/

/-- The operand count in the opcode byte of an instruction is the number of its operand bytes. -/
def Sys2Proof.Laws.OperandCount.Statement (i : Sys2Proof.Instr) : Prop :=
  Sys2Proof.opcodeNops i.opcode = i.operands.length

namespace Sys2Proof.Laws.OperandCount

theorem hlt : Statement .hlt :=
  show opcodeNops Config.OPC_HLT = 0 by decide
theorem ldi (a imm : Byte) : Statement (.ldi a imm) :=
  show opcodeNops Config.OPC_LDI = 2 by decide
theorem prn (a : Byte) : Statement (.prn a) :=
  show opcodeNops Config.OPC_PRN = 1 by decide
theorem add (a b : Byte) : Statement (.add a b) :=
  show opcodeNops Config.OPC_ADD = 2 by decide
theorem mul (a b : Byte) : Statement (.mul a b) :=
  show opcodeNops Config.OPC_MUL = 2 by decide
theorem and (a b : Byte) : Statement (.and a b) :=
  show opcodeNops Config.OPC_AND = 2 by decide
theorem or (a b : Byte) : Statement (.or a b) :=
  show opcodeNops Config.OPC_OR = 2 by decide
theorem xor (a b : Byte) : Statement (.xor a b) :=
  show opcodeNops Config.OPC_XOR = 2 by decide
theorem shl (a b : Byte) : Statement (.shl a b) :=
  show opcodeNops Config.OPC_SHL = 2 by decide
theorem shr (a b : Byte) : Statement (.shr a b) :=
  show opcodeNops Config.OPC_SHR = 2 by decide
theorem mod (a b : Byte) : Statement (.mod a b) :=
  show opcodeNops Config.OPC_MOD = 2 by decide
theorem not (a : Byte) : Statement (.not a) :=
  show opcodeNops Config.OPC_NOT = 1 by decide
theorem cmp (a b : Byte) : Statement (.cmp a b) :=
  show opcodeNops Config.OPC_CMP = 2 by decide
theorem push (a : Byte) : Statement (.push a) :=
  show opcodeNops Config.OPC_PUSH = 1 by decide
theorem pop (a : Byte) : Statement (.pop a) :=
  show opcodeNops Config.OPC_POP = 1 by decide
theorem call (a : Byte) : Statement (.call a) :=
  show opcodeNops Config.OPC_CALL = 1 by decide
theorem ret : Statement .ret :=
  show opcodeNops Config.OPC_RET = 0 by decide
theorem jmp (a : Byte) : Statement (.jmp a) :=
  show opcodeNops Config.OPC_JMP = 1 by decide
theorem jeq (a : Byte) : Statement (.jeq a) :=
  show opcodeNops Config.OPC_JEQ = 1 by decide
theorem jne (a : Byte) : Statement (.jne a) :=
  show opcodeNops Config.OPC_JNE = 1 by decide

end Sys2Proof.Laws.OperandCount
end

