-- ==== Sys2Proof/Laws/Decode.lean ====
section
/-! SUPPORT. Facts about opcodes, decoding and encoding: the fields of each opcode byte, and everything
`decode` can answer. -/

namespace Sys2Proof

/-! ### The fields of the 20 opcodes -/

@[simp] theorem opcodeLength_hlt : opcodeLength Config.OPC_HLT = 1 := by decide
@[simp] theorem opcodeLength_ldi : opcodeLength Config.OPC_LDI = 3 := by decide
@[simp] theorem opcodeLength_prn : opcodeLength Config.OPC_PRN = 2 := by decide
@[simp] theorem opcodeLength_add : opcodeLength Config.OPC_ADD = 3 := by decide
@[simp] theorem opcodeLength_mul : opcodeLength Config.OPC_MUL = 3 := by decide
@[simp] theorem opcodeLength_and : opcodeLength Config.OPC_AND = 3 := by decide
@[simp] theorem opcodeLength_or : opcodeLength Config.OPC_OR = 3 := by decide
@[simp] theorem opcodeLength_xor : opcodeLength Config.OPC_XOR = 3 := by decide
@[simp] theorem opcodeLength_shl : opcodeLength Config.OPC_SHL = 3 := by decide
@[simp] theorem opcodeLength_shr : opcodeLength Config.OPC_SHR = 3 := by decide
@[simp] theorem opcodeLength_mod : opcodeLength Config.OPC_MOD = 3 := by decide
@[simp] theorem opcodeLength_not : opcodeLength Config.OPC_NOT = 2 := by decide
@[simp] theorem opcodeLength_cmp : opcodeLength Config.OPC_CMP = 3 := by decide
@[simp] theorem opcodeLength_push : opcodeLength Config.OPC_PUSH = 2 := by decide
@[simp] theorem opcodeLength_pop : opcodeLength Config.OPC_POP = 2 := by decide
@[simp] theorem opcodeLength_call : opcodeLength Config.OPC_CALL = 2 := by decide
@[simp] theorem opcodeLength_ret : opcodeLength Config.OPC_RET = 1 := by decide
@[simp] theorem opcodeLength_jmp : opcodeLength Config.OPC_JMP = 2 := by decide
@[simp] theorem opcodeLength_jeq : opcodeLength Config.OPC_JEQ = 2 := by decide
@[simp] theorem opcodeLength_jne : opcodeLength Config.OPC_JNE = 2 := by decide

@[simp] theorem opcodeSetsPc_hlt : opcodeSetsPc Config.OPC_HLT = false := by decide
@[simp] theorem opcodeSetsPc_ldi : opcodeSetsPc Config.OPC_LDI = false := by decide
@[simp] theorem opcodeSetsPc_prn : opcodeSetsPc Config.OPC_PRN = false := by decide
@[simp] theorem opcodeSetsPc_add : opcodeSetsPc Config.OPC_ADD = false := by decide
@[simp] theorem opcodeSetsPc_mul : opcodeSetsPc Config.OPC_MUL = false := by decide
@[simp] theorem opcodeSetsPc_and : opcodeSetsPc Config.OPC_AND = false := by decide
@[simp] theorem opcodeSetsPc_or : opcodeSetsPc Config.OPC_OR = false := by decide
@[simp] theorem opcodeSetsPc_xor : opcodeSetsPc Config.OPC_XOR = false := by decide
@[simp] theorem opcodeSetsPc_shl : opcodeSetsPc Config.OPC_SHL = false := by decide
@[simp] theorem opcodeSetsPc_shr : opcodeSetsPc Config.OPC_SHR = false := by decide
@[simp] theorem opcodeSetsPc_mod : opcodeSetsPc Config.OPC_MOD = false := by decide
@[simp] theorem opcodeSetsPc_not : opcodeSetsPc Config.OPC_NOT = false := by decide
@[simp] theorem opcodeSetsPc_cmp : opcodeSetsPc Config.OPC_CMP = false := by decide
@[simp] theorem opcodeSetsPc_push : opcodeSetsPc Config.OPC_PUSH = false := by decide
@[simp] theorem opcodeSetsPc_pop : opcodeSetsPc Config.OPC_POP = false := by decide
@[simp] theorem opcodeSetsPc_call : opcodeSetsPc Config.OPC_CALL = true := by decide
@[simp] theorem opcodeSetsPc_ret : opcodeSetsPc Config.OPC_RET = true := by decide
@[simp] theorem opcodeSetsPc_jmp : opcodeSetsPc Config.OPC_JMP = true := by decide
@[simp] theorem opcodeSetsPc_jeq : opcodeSetsPc Config.OPC_JEQ = true := by decide
@[simp] theorem opcodeSetsPc_jne : opcodeSetsPc Config.OPC_JNE = true := by decide

/-- The operand count of an instruction's opcode is the number of its operand bytes. -/
theorem opcodeNops_opcode (i : Instr) : opcodeNops i.opcode = i.operands.length := by
  cases i with
  | hlt => exact Laws.OperandCount.hlt
  | ldi a b => exact Laws.OperandCount.ldi a b
  | prn a => exact Laws.OperandCount.prn a
  | add a b => exact Laws.OperandCount.add a b
  | mul a b => exact Laws.OperandCount.mul a b
  | and a b => exact Laws.OperandCount.and a b
  | or a b => exact Laws.OperandCount.or a b
  | xor a b => exact Laws.OperandCount.xor a b
  | shl a b => exact Laws.OperandCount.shl a b
  | shr a b => exact Laws.OperandCount.shr a b
  | mod a b => exact Laws.OperandCount.mod a b
  | not a => exact Laws.OperandCount.not a
  | cmp a b => exact Laws.OperandCount.cmp a b
  | push a => exact Laws.OperandCount.push a
  | pop a => exact Laws.OperandCount.pop a
  | call a => exact Laws.OperandCount.call a
  | ret => exact Laws.OperandCount.ret
  | jmp a => exact Laws.OperandCount.jmp a
  | jeq a => exact Laws.OperandCount.jeq a
  | jne a => exact Laws.OperandCount.jne a

theorem operands_length_le (i : Instr) : i.operands.length ≤ 2 := by
  cases i <;> simp [Instr.operands]

/-- Legal encodings are 1, 2 or 3 bytes long. -/
theorem encode_length (i : Instr) : (encode i).length = opcodeLength i.opcode := by
  rw [encode, List.length_cons, opcodeLength, opcodeNops_opcode]

@[simp] theorem isRegister_iff (i : Byte) : isRegister i = true ↔ i.toNat < 8 := decide_eq_true_iff

/-! ### What `decode` answers -/

/-- Every row of the table builds an instruction of the row's opcode whose operands are the first
fetched bytes, as many as the opcode counts. -/
theorem opcodeTable_row {r : OpcodeRow} (h : r ∈ opcodeTable) (a b : Byte) :
    (r.build a b).opcode = r.opcode ∧
      (r.build a b).operands = [a, b].take (r.build a b).operands.length := by
  simp only [opcodeTable, opcodeRowsAlu, opcodeRowsControl, List.cons_append, List.nil_append,
    List.mem_cons, List.not_mem_nil, or_false] at h
  rcases h with rfl | rfl | rfl | rfl | rfl | rfl | rfl | rfl | rfl | rfl | rfl | rfl | rfl | rfl |
    rfl | rfl | rfl | rfl | rfl | rfl <;> exact ⟨rfl, rfl⟩

/-- An answer of the decoder has the opcode it was given, and its operands are the given bytes. -/
theorem decode_ok {op a b : Byte} {i : Instr} (h : decode op a b = .ok i) :
    i.opcode = op ∧ i.operands = [a, b].take (opcodeNops op) := by
  unfold decode at h
  split at h
  · next r hr =>
    injection h with h
    subst h
    have hop : r.opcode = op := by simpa using List.find?_some hr
    obtain ⟨h1, h2⟩ := opcodeTable_row (List.mem_of_find?_eq_some hr) a b
    refine ⟨h1.trans hop, ?_⟩
    rw [← hop, ← h1, opcodeNops_opcode]
    exact h2
  · contradiction

/-- The decoder refuses a byte only as an illegal opcode, and names it. -/
theorem decode_error {op a b : Byte} {e : DecodeError} (h : decode op a b = .error e) :
    e = .illegalOpcode op := by
  unfold decode at h
  split at h
  · contradiction
  · injection h with h
    exact h.symm

/-- The opcode of an instruction, with its operands in the fetched bytes, decodes to it. -/
theorem decode_opcode (i : Instr) {a b : Byte} (h : i.operands = [a, b].take i.operands.length) :
    decode i.opcode a b = .ok i := by
  cases i <;> simp only [Instr.operands, List.length_cons, List.length_nil, List.take_succ_cons,
    List.take_zero, List.cons.injEq, and_true, Nat.zero_add, Nat.reduceAdd] at h
  all_goals first
    | rfl
    | (subst h; rfl)
    | (obtain ⟨rfl, rfl⟩ := h; rfl)

end Sys2Proof
end

