-- ==== Sys2Proof/Laws/Memory.lean ====
section
/-! SUPPORT. The laws of the memory array: read after write, frames, and that every operation keeps
the canonical form. -/

namespace Sys2Proof.Machine.Memory

@[simp] theorem read_nil (a : Nat) : read [] a = unlisted := rfl

theorem read_pair (k : Nat) (u : Byte) (m : Memory) (a : Nat) :
    read ((k, u) :: m) a = if k = a then u else read m a := rfl

@[simp] theorem read_cons_other {a b : Nat} (h : b ≠ a) (v : Byte) (m : Memory) :
    read (cons a v m) b = read m b := by
  unfold cons
  split
  · rfl
  · rw [read_pair, if_neg (Ne.symm h)]

theorem wfFrom_pair {low k : Nat} {u : Byte} {m : Memory} :
    wfFrom low ((k, u) :: m) = true ↔
      low ≤ k ∧ k < Config.MEMSIZE ∧ u ≠ unlisted ∧ wfFrom (k + 1) m = true := by
  simp only [wfFrom, Bool.and_eq_true, decide_eq_true_eq]
  tauto

theorem wfFrom_mono {low low' : Nat} {m : Memory} (hle : low' ≤ low) (h : wfFrom low m = true) :
    wfFrom low' m = true := by
  cases m with
  | nil => rfl
  | cons p m =>
    obtain ⟨h1, h2, h3, h4⟩ := wfFrom_pair.1 h
    exact wfFrom_pair.2 ⟨le_trans hle h1, h2, h3, h4⟩

/-- Below the first listed address every cell is unlisted. -/
theorem read_below {low a : Nat} {m : Memory} (h : wfFrom low m = true) (ha : a < low) :
    read m a = unlisted := by
  induction m generalizing low with
  | nil => rfl
  | cons p m ih =>
    obtain ⟨h1, _, _, h4⟩ := wfFrom_pair.1 h
    rw [read_pair, if_neg (by omega)]
    exact ih h4 (by omega)

/-- A cell outside the 256 is never listed. -/
theorem read_beyond {low a : Nat} {m : Memory} (h : wfFrom low m = true) (ha : Config.MEMSIZE ≤ a) :
    read m a = unlisted := by
  induction m generalizing low with
  | nil => rfl
  | cons p m ih =>
    obtain ⟨_, h2, _, h4⟩ := wfFrom_pair.1 h
    rw [read_pair, if_neg (by omega)]
    exact ih h4

theorem read_cons_same {low a : Nat} {m : Memory} (h : wfFrom low m = true) (ha : a < low) (v : Byte) :
    read (cons a v m) a = v := by
  unfold cons
  split
  · next hv => rw [read_below h ha, hv]
  · rw [read_pair, if_pos rfl]

/-- A write leaves every other address alone, whatever the form of the memory. -/
@[simp] theorem read_write_other {a b : Nat} (h : b ≠ a) (m : Memory) (v : Byte) :
    read (write m a v) b = read m b := by
  induction m with
  | nil => simp [write, h]
  | cons p m ih =>
    obtain ⟨k, u⟩ := p
    simp only [write]
    split
    · exact read_cons_other h v _
    · split
      · next hk => rw [read_cons_other h, read_pair, if_neg (by omega)]
      · rw [read_pair, read_pair, ih]

theorem read_write_same_from {low a : Nat} {m : Memory} (h : wfFrom low m = true) (v : Byte) :
    read (write m a v) a = v := by
  induction m generalizing low with
  | nil => exact read_cons_same (low := a + 1) rfl (Nat.lt_succ_self a) v
  | cons p m ih =>
    obtain ⟨k, u⟩ := p
    obtain ⟨_, h2, h3, h4⟩ := wfFrom_pair.1 h
    simp only [write]
    split
    · next hk => exact read_cons_same (wfFrom_pair.2 ⟨le_refl k, h2, h3, h4⟩) hk v
    · split
      · next hk => exact read_cons_same h4 (by omega) v
      · rw [read_pair, if_neg (by omega)]
        exact ih h4

/-- Read after write at the same address. -/
@[simp] theorem read_write_same {a : Nat} {m : Memory} (h : wf m = true) (v : Byte) :
    read (write m a v) a = v := read_write_same_from h v

theorem read_write {a b : Nat} {m : Memory} (h : wf m = true) (v : Byte) :
    read (write m a v) b = if b = a then v else read m b := by
  split
  · next hb => rw [hb, read_write_same h]
  · next hb => exact read_write_other hb m v

theorem wfFrom_cons {low a : Nat} {m : Memory} (v : Byte) (hlow : low ≤ a) (ha : a < Config.MEMSIZE)
    (h : wfFrom (a + 1) m = true) : wfFrom low (cons a v m) = true := by
  unfold cons
  split
  · exact wfFrom_mono (by omega) h
  · next hv => exact wfFrom_pair.2 ⟨hlow, ha, hv, h⟩

theorem wfFrom_write {low a : Nat} {m : Memory} (v : Byte) (hlow : low ≤ a) (ha : a < Config.MEMSIZE)
    (h : wfFrom low m = true) : wfFrom low (write m a v) = true := by
  induction m generalizing low with
  | nil => exact wfFrom_cons v hlow ha rfl
  | cons p m ih =>
    obtain ⟨k, u⟩ := p
    obtain ⟨h1, h2, h3, h4⟩ := wfFrom_pair.1 h
    simp only [write]
    split
    · exact wfFrom_cons v hlow ha (wfFrom_pair.2 ⟨by omega, h2, h3, h4⟩)
    · split
      · next hk => subst hk; exact wfFrom_cons v hlow ha h4
      · exact wfFrom_pair.2 ⟨h1, h2, h3, ih (by omega) h4⟩

/-- A write inside the 256 cells keeps the canonical form. -/
theorem wf_write {a : Nat} {m : Memory} (v : Byte) (ha : a < Config.MEMSIZE) (h : wf m = true) :
    wf (write m a v) = true := wfFrom_write v (Nat.zero_le a) ha h

theorem wf_writeBlock {m : Memory} {a : Nat} {vs : List Byte} (ha : a + vs.length ≤ Config.MEMSIZE)
    (h : wf m = true) : wf (writeBlock m a vs) = true := by
  induction vs generalizing m a with
  | nil => exact h
  | cons v vs ih =>
    rw [List.length_cons] at ha
    exact ih (by omega) (wf_write v (by omega) h)

/-- A block write leaves the addresses outside the block alone, whatever the form of the memory. -/
theorem read_writeBlock_outside {m : Memory} {a b : Nat} {vs : List Byte}
    (hb : b < a ∨ a + vs.length ≤ b) : read (writeBlock m a vs) b = read m b := by
  induction vs generalizing m a with
  | nil => rfl
  | cons v vs ih =>
    rw [List.length_cons] at hb
    rw [writeBlock, ih (by omega), read_write_other (by omega)]

theorem read_writeBlock_inside {m : Memory} {a k : Nat} {vs : List Byte} (h : wf m = true)
    (ha : a + vs.length ≤ Config.MEMSIZE) (hk : k < vs.length) :
    read (writeBlock m a vs) (a + k) = vs[k] := by
  induction vs generalizing m a k with
  | nil => simp at hk
  | cons v vs ih =>
    rw [List.length_cons] at ha hk
    rw [writeBlock]
    cases k with
    | zero => rw [read_writeBlock_outside (by omega), Nat.add_zero, read_write_same h]; rfl
    | succ k =>
      have := ih (m := write m a v) (a := a + 1) (k := k) (wf_write v (by omega) h) (by omega) (by omega)
      rw [show a + (k + 1) = a + 1 + k by omega, this]
      rfl

theorem eq_of_read_eq_from {low : Nat} {m n : Memory} (hm : wfFrom low m = true)
    (hn : wfFrom low n = true) (h : ∀ a, read m a = read n a) : m = n := by
  induction m generalizing low n with
  | nil =>
    cases n with
    | nil => rfl
    | cons q n =>
      obtain ⟨_, _, q3, _⟩ := wfFrom_pair.1 hn
      have := h q.1
      rw [read_nil, read_pair, if_pos rfl] at this
      exact absurd this.symm q3
  | cons p m ih =>
    obtain ⟨p1, p2, p3, p4⟩ := wfFrom_pair.1 hm
    cases n with
    | nil =>
      have := h p.1
      rw [read_nil, read_pair, if_pos rfl] at this
      exact absurd this p3
    | cons q n =>
      obtain ⟨q1, q2, q3, q4⟩ := wfFrom_pair.1 hn
      have hk : p.1 = q.1 := by
        rcases Nat.lt_trichotomy p.1 q.1 with hlt | heq | hgt
        · have := h p.1
          rw [read_pair, if_pos rfl, read_below (low := q.1)
            (wfFrom_pair.2 ⟨le_refl _, q2, q3, q4⟩) hlt] at this
          exact absurd this p3
        · exact heq
        · have := h q.1
          rw [read_pair q.1 q.2, if_pos rfl, read_below (low := p.1)
            (wfFrom_pair.2 ⟨le_refl _, p2, p3, p4⟩) hgt] at this
          exact absurd this.symm q3
      have hv : p.2 = q.2 := by
        have := h p.1
        rwa [read_pair, if_pos rfl, read_pair, if_pos hk.symm] at this
      have hrest : m = n := by
        refine ih p4 (hk ▸ q4) fun a => ?_
        by_cases ha : a < p.1 + 1
        · rw [read_below p4 ha, read_below q4 (hk ▸ ha)]
        · have := h a
          rwa [read_pair, read_pair, if_neg (by omega), if_neg (by omega)] at this
      rw [hrest, Prod.ext hk hv]

/-- The form is canonical: memories that read alike are equal. -/
theorem eq_of_read_eq {m n : Memory} (hm : wf m = true) (hn : wf n = true)
    (h : ∀ a, read m a = read n a) : m = n := eq_of_read_eq_from hm hn h

end Sys2Proof.Machine.Memory
end

