-- ==== Sys2Proof/Laws/State.lean ====
section
/-! SUPPORT. One lemma per field per named update of the state, all by `rfl`, so that no later proof
unfolds a record update. -/

namespace Sys2Proof.Machine.State

variable (s : State)

@[simp] theorem setRegs_regs (v : Vector Byte 8) : (s.setRegs v).regs = v := rfl
@[simp] theorem setRegs_pc (v : Vector Byte 8) : (s.setRegs v).pc = s.pc := rfl
@[simp] theorem setRegs_sp (v : Vector Byte 8) : (s.setRegs v).sp = s.sp := rfl
@[simp] theorem setRegs_fl (v : Vector Byte 8) : (s.setRegs v).fl = s.fl := rfl
@[simp] theorem setRegs_run (v : Vector Byte 8) : (s.setRegs v).run = s.run := rfl
@[simp] theorem setRegs_cause (v : Vector Byte 8) : (s.setRegs v).cause = s.cause := rfl
@[simp] theorem setRegs_mem (v : Vector Byte 8) : (s.setRegs v).mem = s.mem := rfl
@[simp] theorem setRegs_out (v : Vector Byte 8) : (s.setRegs v).out = s.out := rfl
@[simp] theorem setRegs_diag (v : Vector Byte 8) : (s.setRegs v).diag = s.diag := rfl

@[simp] theorem setPc_regs (v : Nat) : (s.setPc v).regs = s.regs := rfl
@[simp] theorem setPc_pc (v : Nat) : (s.setPc v).pc = v := rfl
@[simp] theorem setPc_sp (v : Nat) : (s.setPc v).sp = s.sp := rfl
@[simp] theorem setPc_fl (v : Nat) : (s.setPc v).fl = s.fl := rfl
@[simp] theorem setPc_run (v : Nat) : (s.setPc v).run = s.run := rfl
@[simp] theorem setPc_cause (v : Nat) : (s.setPc v).cause = s.cause := rfl
@[simp] theorem setPc_mem (v : Nat) : (s.setPc v).mem = s.mem := rfl
@[simp] theorem setPc_out (v : Nat) : (s.setPc v).out = s.out := rfl
@[simp] theorem setPc_diag (v : Nat) : (s.setPc v).diag = s.diag := rfl

@[simp] theorem setSp_regs (v : Byte) : (s.setSp v).regs = s.regs := rfl
@[simp] theorem setSp_pc (v : Byte) : (s.setSp v).pc = s.pc := rfl
@[simp] theorem setSp_sp (v : Byte) : (s.setSp v).sp = v := rfl
@[simp] theorem setSp_fl (v : Byte) : (s.setSp v).fl = s.fl := rfl
@[simp] theorem setSp_run (v : Byte) : (s.setSp v).run = s.run := rfl
@[simp] theorem setSp_cause (v : Byte) : (s.setSp v).cause = s.cause := rfl
@[simp] theorem setSp_mem (v : Byte) : (s.setSp v).mem = s.mem := rfl
@[simp] theorem setSp_out (v : Byte) : (s.setSp v).out = s.out := rfl
@[simp] theorem setSp_diag (v : Byte) : (s.setSp v).diag = s.diag := rfl

@[simp] theorem setFl_regs (v : Flag) : (s.setFl v).regs = s.regs := rfl
@[simp] theorem setFl_pc (v : Flag) : (s.setFl v).pc = s.pc := rfl
@[simp] theorem setFl_sp (v : Flag) : (s.setFl v).sp = s.sp := rfl
@[simp] theorem setFl_fl (v : Flag) : (s.setFl v).fl = v := rfl
@[simp] theorem setFl_run (v : Flag) : (s.setFl v).run = s.run := rfl
@[simp] theorem setFl_cause (v : Flag) : (s.setFl v).cause = s.cause := rfl
@[simp] theorem setFl_mem (v : Flag) : (s.setFl v).mem = s.mem := rfl
@[simp] theorem setFl_out (v : Flag) : (s.setFl v).out = s.out := rfl
@[simp] theorem setFl_diag (v : Flag) : (s.setFl v).diag = s.diag := rfl

@[simp] theorem setRun_regs (v : RunState) : (s.setRun v).regs = s.regs := rfl
@[simp] theorem setRun_pc (v : RunState) : (s.setRun v).pc = s.pc := rfl
@[simp] theorem setRun_sp (v : RunState) : (s.setRun v).sp = s.sp := rfl
@[simp] theorem setRun_fl (v : RunState) : (s.setRun v).fl = s.fl := rfl
@[simp] theorem setRun_run (v : RunState) : (s.setRun v).run = v := rfl
@[simp] theorem setRun_cause (v : RunState) : (s.setRun v).cause = s.cause := rfl
@[simp] theorem setRun_mem (v : RunState) : (s.setRun v).mem = s.mem := rfl
@[simp] theorem setRun_out (v : RunState) : (s.setRun v).out = s.out := rfl
@[simp] theorem setRun_diag (v : RunState) : (s.setRun v).diag = s.diag := rfl

@[simp] theorem setCause_regs (v : Option Cause) : (s.setCause v).regs = s.regs := rfl
@[simp] theorem setCause_pc (v : Option Cause) : (s.setCause v).pc = s.pc := rfl
@[simp] theorem setCause_sp (v : Option Cause) : (s.setCause v).sp = s.sp := rfl
@[simp] theorem setCause_fl (v : Option Cause) : (s.setCause v).fl = s.fl := rfl
@[simp] theorem setCause_run (v : Option Cause) : (s.setCause v).run = s.run := rfl
@[simp] theorem setCause_cause (v : Option Cause) : (s.setCause v).cause = v := rfl
@[simp] theorem setCause_mem (v : Option Cause) : (s.setCause v).mem = s.mem := rfl
@[simp] theorem setCause_out (v : Option Cause) : (s.setCause v).out = s.out := rfl
@[simp] theorem setCause_diag (v : Option Cause) : (s.setCause v).diag = s.diag := rfl

@[simp] theorem setMem_regs (v : Memory) : (s.setMem v).regs = s.regs := rfl
@[simp] theorem setMem_pc (v : Memory) : (s.setMem v).pc = s.pc := rfl
@[simp] theorem setMem_sp (v : Memory) : (s.setMem v).sp = s.sp := rfl
@[simp] theorem setMem_fl (v : Memory) : (s.setMem v).fl = s.fl := rfl
@[simp] theorem setMem_run (v : Memory) : (s.setMem v).run = s.run := rfl
@[simp] theorem setMem_cause (v : Memory) : (s.setMem v).cause = s.cause := rfl
@[simp] theorem setMem_mem (v : Memory) : (s.setMem v).mem = v := rfl
@[simp] theorem setMem_out (v : Memory) : (s.setMem v).out = s.out := rfl
@[simp] theorem setMem_diag (v : Memory) : (s.setMem v).diag = s.diag := rfl

@[simp] theorem setOut_regs (v : List Byte) : (s.setOut v).regs = s.regs := rfl
@[simp] theorem setOut_pc (v : List Byte) : (s.setOut v).pc = s.pc := rfl
@[simp] theorem setOut_sp (v : List Byte) : (s.setOut v).sp = s.sp := rfl
@[simp] theorem setOut_fl (v : List Byte) : (s.setOut v).fl = s.fl := rfl
@[simp] theorem setOut_run (v : List Byte) : (s.setOut v).run = s.run := rfl
@[simp] theorem setOut_cause (v : List Byte) : (s.setOut v).cause = s.cause := rfl
@[simp] theorem setOut_mem (v : List Byte) : (s.setOut v).mem = s.mem := rfl
@[simp] theorem setOut_out (v : List Byte) : (s.setOut v).out = v := rfl
@[simp] theorem setOut_diag (v : List Byte) : (s.setOut v).diag = s.diag := rfl

@[simp] theorem setDiag_regs (v : List Diag) : (s.setDiag v).regs = s.regs := rfl
@[simp] theorem setDiag_pc (v : List Diag) : (s.setDiag v).pc = s.pc := rfl
@[simp] theorem setDiag_sp (v : List Diag) : (s.setDiag v).sp = s.sp := rfl
@[simp] theorem setDiag_fl (v : List Diag) : (s.setDiag v).fl = s.fl := rfl
@[simp] theorem setDiag_run (v : List Diag) : (s.setDiag v).run = s.run := rfl
@[simp] theorem setDiag_cause (v : List Diag) : (s.setDiag v).cause = s.cause := rfl
@[simp] theorem setDiag_mem (v : List Diag) : (s.setDiag v).mem = s.mem := rfl
@[simp] theorem setDiag_out (v : List Diag) : (s.setDiag v).out = s.out := rfl
@[simp] theorem setDiag_diag (v : List Diag) : (s.setDiag v).diag = v := rfl

end Sys2Proof.Machine.State
end

