-- ==== Sys2Proof/Laws/Ops.lean ====
section
/-! SUPPORT. For each shared operation, what it answers and everything it can do. -/

namespace Sys2Proof.Machine

open Host (Outcome)

/-! ### Registers -/

theorem readReg_of_lt (s : State) {i : Byte} (h : i.toNat < 8) :
    readReg s i = .ok s.regs[i.toNat] := dif_pos h

theorem readReg_of_ge (s : State) {i : Byte} (h : 8 ≤ i.toNat) :
    readReg s i = .error (.outOfRangeRegister i) := dif_neg (by omega)

theorem readReg_ok {s : State} {i v : Byte} (h : readReg s i = .ok v) :
    ∃ hi : i.toNat < 8, v = s.regs[i.toNat] := by
  unfold readReg at h
  split at h
  · next hi => exact ⟨hi, by injection h with h; exact h.symm⟩
  · contradiction

theorem readReg_error {s : State} {i : Byte} {c : Cause} (h : readReg s i = .error c) :
    8 ≤ i.toNat ∧ c = .outOfRangeRegister i := by
  unfold readReg at h
  split at h
  · contradiction
  · next hi => exact ⟨by omega, by injection h with h; exact h.symm⟩

theorem writeReg_of_lt (s : State) {i : Byte} (h : i.toNat < 8) (v : Byte) :
    writeReg s i v = .ok (s.setRegs (s.regs.set i.toNat v)) := dif_pos h

theorem writeReg_of_ge (s : State) {i : Byte} (h : 8 ≤ i.toNat) (v : Byte) :
    writeReg s i v = .error (.outOfRangeRegister i) := dif_neg (by omega)

theorem writeReg_ok {s t : State} {i v : Byte} (h : writeReg s i v = .ok t) :
    ∃ hi : i.toNat < 8, t = s.setRegs (s.regs.set i.toNat v) := by
  unfold writeReg at h
  split at h
  · next hi => exact ⟨hi, by injection h with h; exact h.symm⟩
  · contradiction

theorem writeReg_error {s : State} {i v : Byte} {c : Cause} (h : writeReg s i v = .error c) :
    8 ≤ i.toNat ∧ c = .outOfRangeRegister i := by
  unfold writeReg at h
  split at h
  · contradiction
  · next hi => exact ⟨by omega, by injection h with h; exact h.symm⟩

theorem checkReg_of_lt {i : Byte} (h : i.toNat < 8) : checkReg i = .ok () := if_pos h

theorem checkReg_of_ge {i : Byte} (h : 8 ≤ i.toNat) :
    checkReg i = .error (.outOfRangeRegister i) := if_neg (by omega)

/-- Every register but the written one keeps its byte. -/
theorem regs_set_other (v : Vector Byte 8) {i : Nat} (hi : i < 8) (b : Byte) (r : Fin 8)
    (h : r.val ≠ i) : (v.set i b)[r] = v[r] := by
  simp [Ne.symm h]

/-! ### Memory accesses -/

theorem memRead_of_lt (s : State) {a : Nat} (h : a < 256) : memRead s a = .ok (Memory.read s.mem a) :=
  if_pos h

theorem memRead_of_ge (s : State) {a : Nat} (h : 256 ≤ a) :
    memRead s a = .error (.outOfRangeMemory a) := if_neg (by unfold Config.MEMSIZE; omega)

theorem memWrite_of_lt (s : State) {a : Nat} (h : a < 256) (v : Byte) :
    memWrite s a v = .ok (s.setMem (Memory.write s.mem a v)) := if_pos h

/-! ### The stack -/

theorem pushAddress_lt (s : State) : pushAddress s < 256 := (s.sp - 1).isLt

theorem pushByte_zero {s : State} (h : s.sp = 0) (v : Byte) :
    pushByte s v = .error (.outOfRangeStack (-1)) := if_pos h

/-- A push that does not fault: `sp` is decremented and one byte stored there. -/
theorem pushByte_of_ne {s : State} (h : s.sp ≠ 0) (v : Byte) :
    pushByte s v =
      .ok ((s.setSp (s.sp - 1)).setMem (Memory.write s.mem (pushAddress s) v)) := by
  rw [pushByte, if_neg h, memWrite_of_lt _ (pushAddress_lt s)]
  rfl

theorem popByte_top {s : State} (h : s.sp = 255) :
    popByte s = .error (.outOfRangeStack 256) := if_pos h

/-- A pop that does not fault: the byte at `sp`, and `sp` incremented. -/
theorem popByte_of_ne {s : State} (h : s.sp ≠ 255) :
    popByte s = .ok (Memory.read s.mem s.sp.toNat, s.setSp (s.sp + 1)) := by
  rw [popByte, if_neg h, memRead_of_lt _ s.sp.isLt]
  rfl

/-! ### The end of a cycle -/

@[simp] theorem raise_regs (c : Cause) (s : State) : (raise c s).regs = s.regs := rfl
@[simp] theorem raise_pc (c : Cause) (s : State) : (raise c s).pc = s.pc := rfl
@[simp] theorem raise_sp (c : Cause) (s : State) : (raise c s).sp = s.sp := rfl
@[simp] theorem raise_fl (c : Cause) (s : State) : (raise c s).fl = s.fl := rfl
@[simp] theorem raise_run (c : Cause) (s : State) : (raise c s).run = .faulted := rfl
@[simp] theorem raise_cause (c : Cause) (s : State) : (raise c s).cause = some c := rfl
@[simp] theorem raise_mem (c : Cause) (s : State) : (raise c s).mem = s.mem := rfl
@[simp] theorem raise_out (c : Cause) (s : State) : (raise c s).out = s.out := rfl
@[simp] theorem raise_diag (c : Cause) (s : State) : (raise c s).diag = s.diag := rfl

/-- Step 5 touches nothing but `pc`. -/
theorem autoAdvance_eq (op : Byte) (s : State) : ∃ p, autoAdvance op s = s.setPc p := by
  unfold autoAdvance
  split
  · exact ⟨_, rfl⟩
  · exact ⟨s.pc, rfl⟩

@[simp] theorem autoAdvance_regs (op : Byte) (s : State) : (autoAdvance op s).regs = s.regs := by
  obtain ⟨p, h⟩ := autoAdvance_eq op s; rw [h]; rfl
@[simp] theorem autoAdvance_sp (op : Byte) (s : State) : (autoAdvance op s).sp = s.sp := by
  obtain ⟨p, h⟩ := autoAdvance_eq op s; rw [h]; rfl
@[simp] theorem autoAdvance_fl (op : Byte) (s : State) : (autoAdvance op s).fl = s.fl := by
  obtain ⟨p, h⟩ := autoAdvance_eq op s; rw [h]; rfl
@[simp] theorem autoAdvance_run (op : Byte) (s : State) : (autoAdvance op s).run = s.run := by
  obtain ⟨p, h⟩ := autoAdvance_eq op s; rw [h]; rfl
@[simp] theorem autoAdvance_cause (op : Byte) (s : State) : (autoAdvance op s).cause = s.cause := by
  obtain ⟨p, h⟩ := autoAdvance_eq op s; rw [h]; rfl
@[simp] theorem autoAdvance_mem (op : Byte) (s : State) : (autoAdvance op s).mem = s.mem := by
  obtain ⟨p, h⟩ := autoAdvance_eq op s; rw [h]; rfl
@[simp] theorem autoAdvance_out (op : Byte) (s : State) : (autoAdvance op s).out = s.out := by
  obtain ⟨p, h⟩ := autoAdvance_eq op s; rw [h]; rfl
@[simp] theorem autoAdvance_diag (op : Byte) (s : State) : (autoAdvance op s).diag = s.diag := by
  obtain ⟨p, h⟩ := autoAdvance_eq op s; rw [h]; rfl

theorem finish_ok (i : Instr) (s s' : State) :
    finish i s (.ok s') = .next (autoAdvance i.opcode s') := rfl

theorem finish_error (i : Instr) (s : State) (c : Cause) :
    finish i s (.error c) = .next (raise c s) := rfl

/-- A cycle either completes its action and step 5, or takes the fault from the state it began in. -/
theorem finish_next {i : Instr} {s t : State} {r : Except Cause State} (h : finish i s r = .next t) :
    (∃ s', r = .ok s' ∧ t = autoAdvance i.opcode s') ∨ (∃ c, r = .error c ∧ t = raise c s) := by
  cases r with
  | ok s' => exact .inl ⟨s', rfl, by injection h with h; exact h.symm⟩
  | error c => exact .inr ⟨c, rfl, by injection h with h; exact h.symm⟩

end Sys2Proof.Machine
end

