-- ==== Sys2Proof/Laws/Exec.lean ====
section
/-! SUPPORT. What the actions of the instructions can do: each meaning is `finish` of one action, and
for each action one lemma says everything it answers when it does not fault. -/

namespace Sys2Proof.Machine

open Host (Outcome)

/-- The handler of an instruction, as its rule gives it. -/
def action (i : Instr) (s : State) : Except Cause State :=
  match i with
  | .hlt => .ok (haltAction s)
  | .ldi a imm => writeReg s a (immediate imm)
  | .prn a => do
      let v ← readReg s a
      return emitOut s v
  | .add a b => aluAction aluAdd a b s
  | .mul a b => aluAction aluMul a b s
  | .and a b => aluAction aluAnd a b s
  | .or a b => aluAction aluOr a b s
  | .xor a b => aluAction aluXor a b s
  | .shl a b => aluAction aluShl a b s
  | .shr a b => aluAction aluShr a b s
  | .mod a b => modAction a b s
  | .not a => notAction a s
  | .cmp a b => cmpAction a b s
  | .push a => pushAction a s
  | .pop a => popAction a s
  | .call a => callAction a s
  | .ret => retAction s
  | .jmp a => jumpAction true a s
  | .jeq a => jumpAction (flagIsEqual s.fl) a s
  | .jne a => jumpAction (!flagIsEqual s.fl) a s

/-- Every meaning is the end of a cycle on its instruction's action. -/
theorem exec_eq_finish (i : Instr) (s : State) : exec i s = finish i s (action i s) := by
  cases i <;> rfl

theorem bind_ok {α β : Type} {x : Except Cause α} {f : α → Except Cause β} {r : β}
    (h : (x >>= f) = .ok r) : ∃ a, x = .ok a ∧ f a = .ok r := by
  cases x with
  | ok a => exact ⟨a, rfl, h⟩
  | error c => cases h

theorem aluAction_of_lt (f : Byte → Byte → Byte) (s : State) {a b : Byte} (ha : a.toNat < 8)
    (hb : b.toNat < 8) : aluAction f a b s =
      .ok (s.setRegs (s.regs.set a.toNat (f s.regs[a.toNat] s.regs[b.toNat]))) := by
  rw [aluAction, readReg_of_lt s ha, readReg_of_lt s hb]
  exact writeReg_of_lt s ha _

theorem aluAction_ok {f : Byte → Byte → Byte} {a b : Byte} {s t : State}
    (h : aluAction f a b s = .ok t) : ∃ (ha : a.toNat < 8) (hb : b.toNat < 8),
      t = s.setRegs (s.regs.set a.toNat (f s.regs[a.toNat] s.regs[b.toNat])) := by
  obtain ⟨va, h1, h⟩ := bind_ok h
  obtain ⟨vb, h2, h⟩ := bind_ok h
  obtain ⟨ha, rfl⟩ := readReg_ok h1
  obtain ⟨hb, rfl⟩ := readReg_ok h2
  obtain ⟨_, rfl⟩ := writeReg_ok h
  exact ⟨ha, hb, rfl⟩

theorem modAction_ok {a b : Byte} {s t : State} (h : modAction a b s = .ok t) :
    ∃ (ha : a.toNat < 8) (hb : b.toNat < 8),
      (s.regs[b.toNat] = 0 ∧ t = emitDiag s .divisionByZero) ∨
      (s.regs[b.toNat] ≠ 0 ∧
        t = s.setRegs (s.regs.set a.toNat (aluQuotient s.regs[a.toNat] s.regs[b.toNat]))) := by
  obtain ⟨va, h1, h⟩ := bind_ok h
  obtain ⟨vb, h2, h⟩ := bind_ok h
  obtain ⟨ha, rfl⟩ := readReg_ok h1
  obtain ⟨hb, rfl⟩ := readReg_ok h2
  refine ⟨ha, hb, ?_⟩
  split at h
  · next hz => exact .inl ⟨hz, by injection h with h; exact h.symm⟩
  · next hz =>
    obtain ⟨_, rfl⟩ := writeReg_ok h
    exact .inr ⟨hz, rfl⟩

theorem notAction_ok {a : Byte} {s t : State} (h : notAction a s = .ok t) :
    ∃ ha : a.toNat < 8, t = s.setRegs (s.regs.set a.toNat (aluNot s.regs[a.toNat])) := by
  obtain ⟨va, h1, h⟩ := bind_ok h
  obtain ⟨ha, rfl⟩ := readReg_ok h1
  obtain ⟨_, rfl⟩ := writeReg_ok h
  exact ⟨ha, rfl⟩

theorem cmpAction_ok {a b : Byte} {s t : State} (h : cmpAction a b s = .ok t) :
    ∃ (ha : a.toNat < 8) (hb : b.toNat < 8),
      t = s.setFl (compareFlag s.regs[a.toNat] s.regs[b.toNat]) := by
  obtain ⟨va, h1, h⟩ := bind_ok h
  obtain ⟨vb, h2, h⟩ := bind_ok h
  obtain ⟨ha, rfl⟩ := readReg_ok h1
  obtain ⟨hb, rfl⟩ := readReg_ok h2
  exact ⟨ha, hb, by injection h with h; exact h.symm⟩

theorem prnAction_ok {a : Byte} {s t : State} (h : action (.prn a) s = .ok t) :
    ∃ ha : a.toNat < 8, t = emitOut s s.regs[a.toNat] := by
  obtain ⟨v, h1, h⟩ := bind_ok h
  obtain ⟨ha, rfl⟩ := readReg_ok h1
  exact ⟨ha, by injection h with h; exact h.symm⟩

theorem pushByte_ok {s t : State} {v : Byte} (h : pushByte s v = .ok t) :
    s.sp ≠ 0 ∧ t = (s.setSp (s.sp - 1)).setMem (Memory.write s.mem (pushAddress s) v) := by
  by_cases hs : s.sp = 0
  · rw [pushByte_zero hs] at h; contradiction
  · rw [pushByte_of_ne hs] at h
    exact ⟨hs, by injection h with h; exact h.symm⟩

theorem popByte_ok {s t : State} {v : Byte} (h : popByte s = .ok (v, t)) :
    s.sp ≠ 255 ∧ v = Memory.read s.mem s.sp.toNat ∧ t = s.setSp (s.sp + 1) := by
  by_cases hs : s.sp = 255
  · rw [popByte_top hs] at h; contradiction
  · rw [popByte_of_ne hs] at h
    injection h with h
    injection h with h1 h2
    exact ⟨hs, h1.symm, h2.symm⟩

theorem pushAction_ok {a : Byte} {s t : State} (h : pushAction a s = .ok t) :
    ∃ ha : a.toNat < 8, s.sp ≠ 0 ∧
      t = (s.setSp (s.sp - 1)).setMem (Memory.write s.mem (pushAddress s) s.regs[a.toNat]) := by
  obtain ⟨v, h1, h⟩ := bind_ok h
  obtain ⟨ha, rfl⟩ := readReg_ok h1
  exact ⟨ha, pushByte_ok h⟩

theorem popAction_ok {a : Byte} {s t : State} (h : popAction a s = .ok t) :
    ∃ _ : a.toNat < 8, s.sp ≠ 255 ∧ t = (s.setSp (s.sp + 1)).setRegs
      (s.regs.set a.toNat (Memory.read s.mem s.sp.toNat)) := by
  obtain ⟨_, _, h⟩ := bind_ok h
  obtain ⟨⟨v, s'⟩, h2, h⟩ := bind_ok h
  obtain ⟨hs, rfl, rfl⟩ := popByte_ok h2
  obtain ⟨ha, rfl⟩ := writeReg_ok h
  exact ⟨ha, hs, rfl⟩

theorem callAction_ok {a : Byte} {s t : State} (h : callAction a s = .ok t) :
    ∃ ha : a.toNat < 8, s.sp ≠ 0 ∧
      t = ((s.setSp (s.sp - 1)).setMem
        (Memory.write s.mem (pushAddress s) (returnAddress s))).setPc s.regs[a.toNat].toNat := by
  obtain ⟨v, h1, h⟩ := bind_ok h
  obtain ⟨ha, rfl⟩ := readReg_ok h1
  obtain ⟨s', h2, h⟩ := bind_ok h
  obtain ⟨hs, rfl⟩ := pushByte_ok h2
  exact ⟨ha, hs, by injection h with h; exact h.symm⟩

theorem retAction_ok {s t : State} (h : retAction s = .ok t) :
    s.sp ≠ 255 ∧
      t = (s.setSp (s.sp + 1)).setPc (Memory.read s.mem s.sp.toNat).toNat := by
  obtain ⟨⟨v, s'⟩, h2, h⟩ := bind_ok h
  obtain ⟨hs, rfl, rfl⟩ := popByte_ok h2
  exact ⟨hs, by injection h with h; exact h.symm⟩

theorem jumpAction_ok {taken : Bool} {a : Byte} {s t : State} (h : jumpAction taken a s = .ok t) :
    (taken = true ∧ ∃ ha : a.toNat < 8, t = s.setPc s.regs[a.toNat].toNat) ∨
    (taken = false ∧ t = s.setPc (s.pc + 2)) := by
  cases taken with
  | false => exact .inr ⟨rfl, by injection h with h; exact h.symm⟩
  | true =>
    obtain ⟨v, h1, h⟩ := bind_ok h
    obtain ⟨ha, rfl⟩ := readReg_ok h1
    exact .inl ⟨rfl, ha, by injection h with h; exact h.symm⟩

/-! ### What the actions answer when nothing is out of range -/

theorem prnAction_of_lt (s : State) {a : Byte} (ha : a.toNat < 8) :
    action (.prn a) s = .ok (emitOut s s.regs[a.toNat]) := by
  rw [action, readReg_of_lt s ha]
  rfl

theorem modAction_of_ne (s : State) {a b : Byte} (ha : a.toNat < 8) (hb : b.toNat < 8)
    (hz : s.regs[b.toNat] ≠ 0) : modAction a b s =
      .ok (s.setRegs (s.regs.set a.toNat (aluQuotient s.regs[a.toNat] s.regs[b.toNat]))) := by
  rw [modAction, readReg_of_lt s ha, readReg_of_lt s hb]
  exact (if_neg hz).trans (writeReg_of_lt s ha _)

theorem modAction_of_zero (s : State) {a b : Byte} (ha : a.toNat < 8) (hb : b.toNat < 8)
    (hz : s.regs[b.toNat] = 0) : modAction a b s = .ok (emitDiag s .divisionByZero) := by
  rw [modAction, readReg_of_lt s ha, readReg_of_lt s hb]
  exact if_pos hz

theorem notAction_of_lt (s : State) {a : Byte} (ha : a.toNat < 8) :
    notAction a s = .ok (s.setRegs (s.regs.set a.toNat (aluNot s.regs[a.toNat]))) := by
  rw [notAction, readReg_of_lt s ha]
  exact writeReg_of_lt s ha _

theorem cmpAction_of_lt (s : State) {a b : Byte} (ha : a.toNat < 8) (hb : b.toNat < 8) :
    cmpAction a b s = .ok (s.setFl (compareFlag s.regs[a.toNat] s.regs[b.toNat])) := by
  rw [cmpAction, readReg_of_lt s ha, readReg_of_lt s hb]
  rfl

theorem pushAction_of_ne (s : State) {a : Byte} (ha : a.toNat < 8) (hs : s.sp ≠ 0) :
    pushAction a s = .ok ((s.setSp (s.sp - 1)).setMem
      (Memory.write s.mem (pushAddress s) s.regs[a.toNat])) := by
  rw [pushAction, readReg_of_lt s ha]
  exact pushByte_of_ne hs _

theorem popAction_of_ne (s : State) {a : Byte} (ha : a.toNat < 8) (hs : s.sp ≠ 255) :
    popAction a s = .ok ((s.setSp (s.sp + 1)).setRegs
      (s.regs.set a.toNat (Memory.read s.mem s.sp.toNat))) := by
  rw [popAction, checkReg_of_lt ha, popByte_of_ne hs]
  exact writeReg_of_lt _ ha _

theorem callAction_of_ne (s : State) {a : Byte} (ha : a.toNat < 8) (hs : s.sp ≠ 0) :
    callAction a s = .ok (((s.setSp (s.sp - 1)).setMem
      (Memory.write s.mem (pushAddress s) (returnAddress s))).setPc s.regs[a.toNat].toNat) := by
  rw [callAction, readReg_of_lt s ha, pushByte_of_ne hs]
  rfl

theorem retAction_of_ne {s : State} (hs : s.sp ≠ 255) :
    retAction s = .ok ((s.setSp (s.sp + 1)).setPc (Memory.read s.mem s.sp.toNat).toNat) := by
  rw [retAction, popByte_of_ne hs]
  rfl

theorem jumpAction_taken (s : State) {a : Byte} (ha : a.toNat < 8) :
    jumpAction true a s = .ok (s.setPc s.regs[a.toNat].toNat) := by
  rw [jumpAction, if_pos rfl, readReg_of_lt s ha]
  rfl

theorem jumpAction_not_taken (s : State) (a : Byte) :
    jumpAction false a s = .ok (s.setPc (s.pc + 2)) := rfl

/-! ### When an action faults -/

theorem bind_error {α β : Type} {x : Except Cause α} {f : α → Except Cause β} {c : Cause}
    (h : (x >>= f) = .error c) : x = .error c ∨ ∃ a, x = .ok a ∧ f a = .error c := by
  cases x with
  | ok a => exact .inr ⟨a, rfl, h⟩
  | error c' => injection h with h; exact .inl (by rw [h])

/-- The first of these register operands above 7 is the cause. -/
abbrev RegisterFault (operands : List Byte) (c : Cause) : Prop :=
  ∃ r, operands.find? (fun r => decide (8 ≤ r.toNat)) = some r ∧ c = .outOfRangeRegister r

theorem registerFault_head {i : Byte} {l : List Byte} {c : Cause} (h : 8 ≤ i.toNat)
    (hc : c = .outOfRangeRegister i) : RegisterFault (i :: l) c :=
  ⟨i, List.find?_cons_of_pos (decide_eq_true h), hc⟩

theorem registerFault_second {i j : Byte} {l : List Byte} {c : Cause} (hi : i.toNat < 8)
    (h : 8 ≤ j.toNat) (hc : c = .outOfRangeRegister j) : RegisterFault (i :: j :: l) c :=
  ⟨j, by simp [List.find?, h, Nat.not_le.mpr hi], hc⟩

/-- What a register fault records is a register operand, and above 7. -/
theorem registerFault_mem {l : List Byte} {c : Cause} (h : RegisterFault l c) :
    ∃ r ∈ l, 8 ≤ r.toNat ∧ c = .outOfRangeRegister r := by
  obtain ⟨r, hr, hc⟩ := h
  exact ⟨r, List.mem_of_find?_eq_some hr, by simpa using List.find?_some hr, hc⟩

/-- The registers a well-formed instruction uses exist. -/
theorem registersUsed_wellFormed {i : Instr} (h : i.wellFormed = true) (fl : Flag) :
    ∀ r ∈ registersUsed fl i, r.toNat < 8 := by
  cases i <;> cases fl <;> simp_all [registersUsed, Instr.wellFormed]

theorem readReg_fault {s : State} {i : Byte} {l : List Byte} {c : Cause}
    (h : readReg s i = .error c) : RegisterFault (i :: l) c :=
  registerFault_head (readReg_error h).1 (readReg_error h).2

theorem checkReg_error {i : Byte} {c : Cause} (h : checkReg i = .error c) :
    8 ≤ i.toNat ∧ c = .outOfRangeRegister i := by
  unfold checkReg at h
  split at h
  · contradiction
  · next hlt => exact ⟨by omega, by injection h with h; exact h.symm⟩

theorem checkReg_ok {i : Byte} {u : Unit} (h : checkReg i = .ok u) : i.toNat < 8 := by
  unfold checkReg at h
  split at h
  · assumption
  · contradiction

theorem pushByte_error {s : State} {v : Byte} {c : Cause} (h : pushByte s v = .error c) :
    s.sp = 0 ∧ c = .outOfRangeStack (-1) := by
  by_cases hs : s.sp = 0
  · rw [pushByte_zero hs] at h
    exact ⟨hs, by injection h with h; exact h.symm⟩
  · rw [pushByte_of_ne hs] at h
    contradiction

theorem popByte_error {s : State} {c : Cause} (h : popByte s = .error c) :
    s.sp = 255 ∧ c = .outOfRangeStack 256 := by
  by_cases hs : s.sp = 255
  · rw [popByte_top hs] at h
    exact ⟨hs, by injection h with h; exact h.symm⟩
  · rw [popByte_of_ne hs] at h
    contradiction

/-- Two register reads and then an action that faults only on the first register. -/
theorem twoReads_error {a b : Byte} {s : State} {c : Cause} {f : Byte → Byte → Except Cause State}
    (h : (readReg s a >>= fun va => readReg s b >>= f va) = .error c)
    (hf : ∀ va vb, f va vb = .error c → 8 ≤ a.toNat) : RegisterFault [a, b] c := by
  rcases bind_error h with h | ⟨va, h1, h⟩
  · exact readReg_fault h
  obtain ⟨ha, -⟩ := readReg_ok h1
  rcases bind_error h with h | ⟨vb, -, h⟩
  · exact registerFault_second ha (readReg_error h).1 (readReg_error h).2
  · exact absurd ha (Nat.not_lt.mpr (hf va vb h))

theorem aluAction_error {f : Byte → Byte → Byte} {a b : Byte} {s : State} {c : Cause}
    (h : aluAction f a b s = .error c) : RegisterFault [a, b] c :=
  twoReads_error h fun _ _ h => (writeReg_error h).1

theorem modAction_error {a b : Byte} {s : State} {c : Cause} (h : modAction a b s = .error c) :
    RegisterFault [a, b] c :=
  twoReads_error h fun _ vb h => by
    by_cases hz : vb = 0
    · rw [if_pos hz] at h; contradiction
    · rw [if_neg hz] at h; exact (writeReg_error h).1

theorem cmpAction_error {a b : Byte} {s : State} {c : Cause} (h : cmpAction a b s = .error c) :
    RegisterFault [a, b] c :=
  twoReads_error h fun _ _ h => by contradiction

theorem jumpAction_error {taken : Bool} {a : Byte} {s : State} {c : Cause}
    (h : jumpAction taken a s = .error c) : taken = true ∧ RegisterFault [a] c := by
  cases taken with
  | false => contradiction
  | true =>
    rcases bind_error h with h | ⟨_, _, h⟩
    · exact ⟨rfl, readReg_fault h⟩
    · contradiction

/-- Every way an action can fault: the first register operand out of range among those it uses, or,
where there is none, a push with the stack pointer at 0 or a pop with it at 255. -/
theorem action_error {i : Instr} {s : State} {c : Cause} (h : action i s = .error c) :
    RegisterFault (registersUsed s.fl i) c ∨
    ((∀ r ∈ registersUsed s.fl i, r.toNat < 8) ∧
      ((s.sp = 0 ∧ c = .outOfRangeStack (-1) ∧ ∃ a, i = .push a ∨ i = .call a) ∨
       (s.sp = 255 ∧ c = .outOfRangeStack 256 ∧ (i = .ret ∨ ∃ a, i = .pop a)))) := by
  cases i with
  | hlt => contradiction
  | ldi a imm => exact .inl (registerFault_head (writeReg_error h).1 (writeReg_error h).2)
  | prn a =>
    rcases bind_error h with h | ⟨_, _, h⟩
    · exact .inl (readReg_fault h)
    · contradiction
  | add a b => exact .inl (aluAction_error h)
  | mul a b => exact .inl (aluAction_error h)
  | and a b => exact .inl (aluAction_error h)
  | or a b => exact .inl (aluAction_error h)
  | xor a b => exact .inl (aluAction_error h)
  | shl a b => exact .inl (aluAction_error h)
  | shr a b => exact .inl (aluAction_error h)
  | mod a b => exact .inl (modAction_error h)
  | not a =>
    rcases bind_error h with h | ⟨_, _, h⟩
    · exact .inl (readReg_fault h)
    · exact .inl (registerFault_head (writeReg_error h).1 (writeReg_error h).2)
  | cmp a b => exact .inl (cmpAction_error h)
  | push a =>
    rcases bind_error h with h | ⟨_, h1, h⟩
    · exact .inl (readReg_fault h)
    · obtain ⟨hs, hc⟩ := pushByte_error h
      exact .inr ⟨by simpa [registersUsed] using (readReg_ok h1).1, .inl ⟨hs, hc, a, .inl rfl⟩⟩
  | pop a =>
    rcases bind_error h with h | ⟨_, h1, h⟩
    · exact .inl (registerFault_head (checkReg_error h).1 (checkReg_error h).2)
    have ha := checkReg_ok h1
    rcases bind_error h with h | ⟨_, _, h⟩
    · obtain ⟨hs, hc⟩ := popByte_error h
      exact .inr ⟨by simpa [registersUsed] using ha, .inr ⟨hs, hc, .inr ⟨a, rfl⟩⟩⟩
    · exact absurd ha (Nat.not_lt.mpr (writeReg_error h).1)
  | call a =>
    rcases bind_error h with h | ⟨_, h1, h⟩
    · exact .inl (readReg_fault h)
    rcases bind_error h with h | ⟨_, _, h⟩
    · obtain ⟨hs, hc⟩ := pushByte_error h
      exact .inr ⟨by simpa [registersUsed] using (readReg_ok h1).1, .inl ⟨hs, hc, a, .inr rfl⟩⟩
    · contradiction
  | ret =>
    rcases bind_error h with h | ⟨_, _, h⟩
    · obtain ⟨hs, hc⟩ := popByte_error h
      exact .inr ⟨by simp [registersUsed], .inr ⟨hs, hc, .inl rfl⟩⟩
    · contradiction
  | jmp a => exact .inl (jumpAction_error h).2
  | jeq a =>
    obtain ⟨ht, hf⟩ := jumpAction_error h
    exact .inl (by rw [registersUsed, if_pos (by simpa [flagIsEqual] using ht)]; exact hf)
  | jne a =>
    obtain ⟨ht, hf⟩ := jumpAction_error h
    exact .inl (by rw [registersUsed, if_neg (by simpa [flagIsEqual] using ht)]; exact hf)

end Sys2Proof.Machine
end

