-- ==== Sys2Proof/Laws/Step.lean ====
section
/-! SUPPORT. What the fetch and the cycle can do: one inversion lemma for the step. -/

namespace Sys2Proof.Machine

open Host (Outcome)

/-! ### The fetch -/

/-- A cycle that begins at or below 253 reads its three bytes and dispatches on the first. -/
theorem fetchDecode_of_le {s : State} (h : s.pc ≤ 253) :
    fetchDecode s =
      match decode (Memory.read s.mem s.pc) (Memory.read s.mem (s.pc + 1))
        (Memory.read s.mem (s.pc + 2)) with
      | .ok i    => .ok i
      | .error _ => .error (.illegalOpcode (Memory.read s.mem s.pc) s.pc) := by
  have hread : ∀ op k, k ≤ 2 → fetchOperand s op k = .ok (Memory.read s.mem (s.pc + k)) :=
    fun op k hk => memRead_of_lt s (by omega)
  rw [fetchDecode, memRead_of_lt s (by omega)]
  simp only [bind, Except.bind, hread _ 1 (by omega), hread _ 2 (by omega)]
  all_goals rfl

/-- A cycle that begins above 253 faults at the first address outside memory. -/
theorem fetchDecode_of_gt {s : State} (h : 254 ≤ s.pc) :
    fetchDecode s = .error (.outOfRangeMemory (if s.pc ≤ 256 then 256 else s.pc)) := by
  have hread : ∀ op k, fetchOperand s op k = memRead s (s.pc + k) := fun op k => rfl
  simp only [fetchDecode, hread, bind, Except.bind]
  by_cases h6 : 256 ≤ s.pc
  · rw [memRead_of_ge s h6]
    have : (if s.pc ≤ 256 then 256 else s.pc) = s.pc := by split <;> omega
    simp only [this]
  · rw [memRead_of_lt s (by omega), if_pos (by omega)]
    by_cases h5 : 255 ≤ s.pc
    · have : s.pc = 255 := by omega
      rw [this]
      rfl
    · have : s.pc = 254 := by omega
      rw [this]
      rfl

/-! ### The cycle -/

theorem step_of_running {s : State} (h : s.run = .running) :
    step s = match fetchDecode s with
      | .ok i    => exec i s
      | .error c => .next (raise c s) := by
  unfold step
  rw [h]
  all_goals rfl

theorem step_of_not_running {s : State} (h : s.run ≠ .running) : step s = .next s := by
  unfold step
  cases hr : s.run with
  | running => exact absurd hr h
  | halted => rfl
  | faulted => rfl

/-- What a meaning can answer: its action and step 5, or the fault taken from the state before it. -/
theorem exec_next {i : Instr} {s t : State} (h : exec i s = .next t) :
    (∃ s', action i s = .ok s' ∧ t = autoAdvance i.opcode s') ∨
    (∃ c, action i s = .error c ∧ t = raise c s) :=
  finish_next (exec_eq_finish i s ▸ h)

/-- What a step can do: nothing, outside RUNNING; fault in the fetch or the decode; or run the
instruction that stands at `pc`, which is then at most 253. -/
theorem step_next {s t : State} (h : step s = .next t) :
    (s.run ≠ .running ∧ t = s) ∨
    (s.run = .running ∧ ∃ c, fetchDecode s = .error c ∧ t = raise c s) ∨
    (s.run = .running ∧ s.pc ≤ 253 ∧ ∃ i, fetchDecode s = .ok i ∧ exec i s = .next t) := by
  by_cases hr : s.run = .running
  · rw [step_of_running hr] at h
    split at h
    · next i hi =>
      refine .inr (.inr ⟨hr, ?_, i, hi, h⟩)
      by_contra hc
      rw [fetchDecode_of_gt (by omega)] at hi
      contradiction
    · next c hc => exact .inr (.inl ⟨hr, c, hc, by injection h with h; exact h.symm⟩)
  · rw [step_of_not_running hr] at h
    exact .inl ⟨hr, by injection h with h; exact h.symm⟩

end Sys2Proof.Machine
end

