-- ==== Sys2Proof/Tests/Slice0.lean ====
section
/-! SUPPORT. Tests. Expected results come from the spec: the vectors of 95_test_vectors (named in a
comment) or a rule's own example. The last part shows, for every statement that has hypotheses, a state
and operands that meet them. -/

namespace Sys2Proof.Tests

open Sys2Proof.Machine

/-! ### WellFormed: an ill-formed term for each check, and the encodings it accepts -/

theorem test_wellFormed_refuses_first_register : (Instr.add 8 0).wellFormed = false := by decide
theorem test_wellFormed_refuses_second_register : (Instr.cmp 7 8).wellFormed = false := by decide
theorem test_wellFormed_refuses_ldi_register : (Instr.ldi 8 0).wellFormed = false := by decide
theorem test_wellFormed_refuses_single_register : (Instr.push 255).wellFormed = false := by decide
theorem test_wellFormed_accepts_any_immediate : (Instr.ldi 7 255).wellFormed = true := by decide
theorem test_wellFormed_accepts_no_operand : Instr.ret.wellFormed = true := by decide

/-! ### Decoding: words written out from the encodings of R80 -/

theorem test_decode_hlt :
    decodeBytes [0b00000001, 0b00000011, 0b00001001] = .ok (.hlt, [0b00000011, 0b00001001]) := by decide
theorem test_decode_ldi :
    decodeBytes [0b10000010, 0b00000011, 0b00001001] = .ok (.ldi 3 9, []) := by decide
theorem test_decode_prn :
    decodeBytes [0b01000111, 0b00000011, 0b00001001] = .ok (.prn 3, [0b00001001]) := by decide
theorem test_decode_add :
    decodeBytes [0b10100000, 0b00000011, 0b00001001] = .ok (.add 3 9, []) := by decide
theorem test_decode_mul :
    decodeBytes [0b10100010, 0b00000011, 0b00001001] = .ok (.mul 3 9, []) := by decide
theorem test_decode_and :
    decodeBytes [0b10101000, 0b00000011, 0b00001001] = .ok (.and 3 9, []) := by decide
theorem test_decode_or :
    decodeBytes [0b10101010, 0b00000011, 0b00001001] = .ok (.or 3 9, []) := by decide
theorem test_decode_xor :
    decodeBytes [0b10101011, 0b00000011, 0b00001001] = .ok (.xor 3 9, []) := by decide
theorem test_decode_shl :
    decodeBytes [0b10101100, 0b00000011, 0b00001001] = .ok (.shl 3 9, []) := by decide
theorem test_decode_shr :
    decodeBytes [0b10101101, 0b00000011, 0b00001001] = .ok (.shr 3 9, []) := by decide
theorem test_decode_mod :
    decodeBytes [0b10100100, 0b00000011, 0b00001001] = .ok (.mod 3 9, []) := by decide
theorem test_decode_not :
    decodeBytes [0b01101001, 0b00000011, 0b00001001] = .ok (.not 3, [0b00001001]) := by decide
theorem test_decode_cmp :
    decodeBytes [0b10100111, 0b00000011, 0b00001001] = .ok (.cmp 3 9, []) := by decide
theorem test_decode_push :
    decodeBytes [0b01000101, 0b00000011, 0b00001001] = .ok (.push 3, [0b00001001]) := by decide
theorem test_decode_pop :
    decodeBytes [0b01000110, 0b00000011, 0b00001001] = .ok (.pop 3, [0b00001001]) := by decide
theorem test_decode_call :
    decodeBytes [0b01010000, 0b00000011, 0b00001001] = .ok (.call 3, [0b00001001]) := by decide
theorem test_decode_ret :
    decodeBytes [0b00010001, 0b00000011, 0b00001001] = .ok (.ret, [0b00000011, 0b00001001]) := by decide
theorem test_decode_jmp :
    decodeBytes [0b01010100, 0b00000011, 0b00001001] = .ok (.jmp 3, [0b00001001]) := by decide
theorem test_decode_jeq :
    decodeBytes [0b01010101, 0b00000011, 0b00001001] = .ok (.jeq 3, [0b00001001]) := by decide
theorem test_decode_jne :
    decodeBytes [0b01010110, 0b00000011, 0b00001001] = .ok (.jne 3, [0b00001001]) := by decide

/-- DC14 to DC18. -/
theorem test_decode_illegal : ∀ op ∈ [0x00, 0x21, 0x80, 0xC2, 0xFF],
    decode op 0 0 = .error (.illegalOpcode op) := by decide
theorem test_decode_truncated : decodeBytes [0x82, 0x00] = .error .truncated := by decide
theorem test_decodeTableWord_opcode_only : decodeTableWord 8 0x82 = some (.ldi 0 0) := by decide
theorem test_decodeTableWord_all_bytes : decodeTableWord 24 0x080082 = some (.ldi 0 8) := by decide
theorem test_decodeTableWord_drops_high_bits : decodeTableWord 8 0x080082 = some (.ldi 0 0) := by decide
theorem test_decodeTableWord_illegal : decodeTableWord 8 0x00 = none := by decide

/-! ### One cycle -/

/-- The state the vectors start from: reset, with `pc` at 0x10. -/
def base : State := { State.reset with pc := 0x10 }

/-- With bytes at `pc`. -/
def code (bytes : List Byte) (s : State) : State :=
  { s with mem := Memory.writeBlock s.mem s.pc bytes }

/-- With two registers set. -/
def regs2 (i : Fin 8) (v : Byte) (j : Fin 8) (w : Byte) (s : State) : State :=
  { s with regs := (s.regs.set i.val v).set j.val w }

/-- A part of the state after one cycle. -/
def after {α : Type} (part : State → α) (s : State) : Option α :=
  match step s with
  | .next t => some (part t)
  | _ => none

/-- CY6. -/
theorem test_hlt :
    after (fun t => (t.run, t.pc)) (code [0x01, 0xAA, 0xBB] base) =
      some (.halted, 0x10) := by decide
/-- CY9. -/
theorem test_hlt_at_253 :
    after (fun t => (t.run, t.pc)) (code [0x01] { base with pc := 253 }) =
      some (.halted, 253) := by decide
/-- CY10. -/
theorem test_hlt_at_254_faults :
    after (fun t => (t.run, t.cause, t.pc)) (code [0x01] { base with pc := 254 }) =
      some (.faulted, some (.outOfRangeMemory 256), 254) := by decide
/-- CY2. -/
theorem test_ldi_r7_leaves_sp :
    after (fun t => (t.regs[7], t.sp, t.pc)) (code [0x82, 0x07, 0x10] base) =
      some (0x10, 0xF4, 0x13) := by decide
/-- CY12. -/
theorem test_ldi_to_256 :
    after (fun t => (t.regs[1], t.pc, t.run)) (code [0x82, 0x01, 0x07] { base with pc := 253 }) =
      some (7, 256, .running) := by decide
/-- CY4. -/
theorem test_prn_unsigned :
    after (fun t => (t.out, t.pc)) (code [0x47, 0x02] (regs2 2 0xFF 3 0 base)) =
      some ([0xFF], 0x12) := by decide
/-- ALU table, row FF 01, and A12. -/
theorem test_add_wraps :
    after (fun t => (t.regs[0], t.regs[1], t.fl, t.pc)) (code [0xA0, 0x00, 0x01] (regs2 0 0xFF 1 0x01 { base with fl := .less })) =
      some (0x00, 0x01, .less, 0x13) := by decide
/-- A10. -/
theorem test_add_checks_first_operand_first :
    after (fun t => (t.run, t.cause, t.pc)) (code [0xA0, 0x08, 0x09] base) =
      some (.faulted, some (.outOfRangeRegister 8), 0x10) := by decide
/-- ALU table, row FF 07. -/
theorem test_mul_keeps_low_byte :
    after (fun t => t.regs[0]) (code [0xA2, 0x00, 0x01] (regs2 0 0xFF 1 0x07 base)) =
      some 0xF9 := by decide
/-- R134, the example. -/
theorem test_and :
    after (fun t => t.regs[0]) (code [0xA8, 0x00, 0x01] (regs2 0 0xF0 1 0x3C base)) =
      some 0x30 := by decide
/-- R135, the example. -/
theorem test_or :
    after (fun t => t.regs[0]) (code [0xAA, 0x00, 0x01] (regs2 0 0xF0 1 0x3C base)) =
      some 0xFC := by decide
/-- A2. -/
theorem test_xor_same_register :
    after (fun t => t.regs[2]) (code [0xAB, 0x02, 0x02] (regs2 2 0x5C 3 0 base)) =
      some 0x00 := by decide
/-- A3. -/
theorem test_shl_same_register :
    after (fun t => t.regs[0]) (code [0xAC, 0x00, 0x00] (regs2 0 3 1 0 base)) =
      some 0x18 := by decide
/-- ALU table, row 01 08. -/
theorem test_shl_by_8 :
    after (fun t => t.regs[0]) (code [0xAC, 0x00, 0x01] (regs2 0 0x01 1 0x08 base)) =
      some 0x00 := by decide
/-- ALU table, row 81 01. -/
theorem test_shr_logical :
    after (fun t => t.regs[0]) (code [0xAD, 0x00, 0x01] (regs2 0 0x81 1 0x01 base)) =
      some 0x40 := by decide
/-- ALU table, row 01 FF. -/
theorem test_shr_by_255 :
    after (fun t => t.regs[0]) (code [0xAD, 0x00, 0x01] (regs2 0 0x01 1 0xFF base)) =
      some 0x00 := by decide
/-- ALU table, row 64 07. -/
theorem test_mod_quotient :
    after (fun t => (t.regs[0], t.diag)) (code [0xA4, 0x00, 0x01] (regs2 0 0x64 1 0x07 base)) =
      some (0x0E, []) := by decide
/-- ALU table, row 05 00. -/
theorem test_mod_by_zero :
    after (fun t => (t.regs[0], t.diag, t.run, t.pc)) (code [0xA4, 0x00, 0x01] (regs2 0 0x05 1 0x00 base)) =
      some (0x05, [.divisionByZero], .running, 0x13) := by decide
/-- A6. -/
theorem test_not :
    after (fun t => (t.regs[0], t.pc)) (code [0x69, 0x00] (regs2 0 0xA5 1 0 base)) =
      some (0x5A, 0x12) := by decide
/-- CMP table, row 80 7F. -/
theorem test_cmp_signed :
    after (fun t => (t.fl, t.pc)) (code [0xA7, 0x00, 0x01] (regs2 0 0x80 1 0x7F base)) =
      some (.less, 0x13) := by decide
/-- CMP table, row 01 FF. -/
theorem test_cmp_greater :
    after (fun t => t.fl) (code [0xA7, 0x00, 0x01] (regs2 0 0x01 1 0xFF base)) =
      some .greater := by decide
/-- S3. -/
theorem test_push_r7 :
    after (fun t => (t.sp, t.byteAt 0xF3, t.regs[7], t.pc)) (code [0x45, 0x07] base) =
      some (0xF3, 0xF4, 0xF4, 0x12) := by decide
/-- S4. -/
theorem test_push_at_zero :
    after (fun t => (t.run, t.cause, t.sp)) (code [0x45, 0x00] { base with sp := 0 }) =
      some (.faulted, some (.outOfRangeStack (-1)), 0) := by decide
/-- S2. -/
theorem test_pop_keeps_cell :
    after (fun t => (t.regs[1], t.sp, t.byteAt 0xF3, t.pc)) (code [0x46, 0x01] { base with sp := 0xF3, mem := [(0xF3, 7)] }) =
      some (7, 0xF4, 7, 0x12) := by decide
/-- S5 and S11 together, by R208. -/
theorem test_pop_register_before_stack :
    after (fun t => (t.cause, t.sp)) (code [0x46, 0x09] { base with sp := 0xFF }) =
      some (some (.outOfRangeRegister 9), 0xFF) := by decide
/-- S7. -/
theorem test_call :
    after (fun t => (t.sp, t.byteAt 0xF3, t.pc)) (code [0x50, 0x01] (regs2 1 0x40 2 0 base)) =
      some (0xF3, 0x12, 0x40) := by decide
/-- S13. -/
theorem test_call_at_zero :
    after (fun t => (t.cause, t.pc)) (code [0x50, 0x01] (regs2 1 0x40 2 0 { base with sp := 0 })) =
      some (some (.outOfRangeStack (-1)), 0x10) := by decide
/-- S8. -/
theorem test_ret :
    after (fun t => (t.pc, t.sp)) (code [0x11] { base with sp := 0xF3, mem := [(0xF3, 0x12)] }) =
      some (0x12, 0xF4) := by decide
/-- S14. -/
theorem test_ret_at_top :
    after (fun t => (t.cause, t.pc)) (code [0x11] { base with sp := 0xFF }) =
      some (some (.outOfRangeStack 256), 0x10) := by decide
/-- J11. -/
theorem test_jmp :
    after (fun t => (t.pc, t.run)) (code [0x54, 0x00] (regs2 0 0xFE 1 0 base)) =
      some (0xFE, .running) := by decide
/-- J3. -/
theorem test_jeq_taken :
    after (fun t => t.pc) (code [0x55, 0x02] (regs2 2 0x30 3 0 { base with fl := .equal })) =
      some 0x30 := by decide
/-- J8. -/
theorem test_jeq_not_taken_reads_no_register :
    after (fun t => (t.pc, t.run)) (code [0x55, 0x08] base) =
      some (0x12, .running) := by decide
/-- J5. -/
theorem test_jne_taken_on_unset :
    after (fun t => t.pc) (code [0x56, 0x03] (regs2 3 0x0C 2 0 base)) =
      some 0x0C := by decide
/-- J6. -/
theorem test_jne_not_taken :
    after (fun t => t.pc) (code [0x56, 0x03] (regs2 3 0x0C 2 0 { base with fl := .equal })) =
      some 0x12 := by decide
/-- CY7. -/
theorem test_halted_stays :
    after (fun t => (t.regs[0], t.pc, t.run)) (code [0x82, 0x00, 0x01] { base with run := .halted }) =
      some (0, 0x10, .halted) := by decide
/-- X1. -/
theorem test_empty_memory_is_illegal :
    after (fun t => (t.run, t.cause, t.pc)) (State.reset) =
      some (.faulted, some (.illegalOpcode 0x00 0), 0) := by decide
/-- log 15. -/
theorem test_placed_word_runs :
    after (fun t => (t.regs[0], t.pc)) (State.reset.withFetchWord 24 0x080082) =
      some (8, 3) := by decide

/-! ### Load -/

/-- X7: 257 bytes are refused. -/
theorem test_load_refuses_257 : load (List.replicate 257 1) State.reset = .error .outOfRange :=
  if_pos (by rw [List.length_replicate]; decide)

/-- X8: 256 bytes fit. -/
theorem test_load_accepts_256 : ∃ s, load (List.replicate 256 1) State.reset = .ok s :=
  ⟨_, if_neg (by rw [List.length_replicate]; decide)⟩

/-- R34, R65: a zero byte is not listed. -/
theorem test_load_overwrites :
    (load [0, 5] { State.reset with mem := [(0, 7), (1, 7), (2, 7)] }).map (fun s => s.mem) =
      .ok [(1, 5), (2, 7)] := by decide

/-! ### Witnesses: the hypotheses of the statements can be met -/

/-- Reset with one byte sequence from address 0 on, and a running engine. -/
def run0 (bytes : List Byte) : State := code bytes State.reset

theorem witness_OpcodeLengthFromTopBits_legal :
    ∃ op a b i, decode op a b = .ok i :=
  ⟨0x82, 7, 255, .ldi 7 255, by decide⟩
theorem witness_OpcodeLengthFromTopBits_three_operands :
    ∃ s : State, s.pc ≤ 253 ∧ opcodeNops (s.byteAt s.pc) = 3 :=
  ⟨code [0xC0] { base with pc := 253 }, by decide⟩
theorem witness_SetsPcBitDecidesAutoAdvance_running :
    ∃ (i : Instr) (s t : State), opcodeSetsPc i.opcode = false ∧ s.run = .running ∧
      exec i s = .next t ∧ t.run = .running :=
  ⟨.ldi 7 255, State.reset, _, by decide, rfl, rfl, rfl⟩
theorem witness_SetsPcBitDecidesAutoAdvance_set :
    ∃ op : Byte, opcodeSetsPc op = true := ⟨0x50, by decide⟩
theorem witness_SetsPcBitDecidesAutoAdvance_halted :
    ∃ (i : Instr) (s t : State), opcodeSetsPc i.opcode = false ∧ s.run = .running ∧
      exec i s = .next t ∧ t.run ≠ .running :=
  ⟨.hlt, State.reset, _, by decide, rfl, rfl, by decide⟩
theorem witness_EncodeInvertsDecode :
    ∃ bytes rest i, decodeBytes bytes = .ok (i, rest) :=
  ⟨[0x45, 255, 7], [7], .push 255, by decide⟩
theorem witness_PlacedWordIsRunNext :
    ∃ (s : State) (nbits w : Nat) (i : Instr), Memory.wf s.mem = true ∧
      decodeTableWord nbits w = some i ∧ s.run = .halted ∧ s.pc = 256 :=
  ⟨{ State.reset with run := .halted, pc := 256 }, 8, 0x01, .hlt, by decide⟩
theorem witness_StepRunsDecodedInstruction :
    ∃ (s : State) (i : Instr), s.run = .running ∧ s.pc = 253 ∧
      decode (s.byteAt s.pc) (s.byteAt (s.pc + 1)) (s.byteAt (s.pc + 2)) = .ok i :=
  ⟨code [0x82, 0x01, 0x07] { base with pc := 253 }, .ldi 1 7, by decide⟩
theorem witness_TerminalStatesStay :
    ∃ s t : State, s.run = .halted ∧ t.run = .faulted :=
  ⟨{ base with run := .halted }, base.faultedWith (.outOfRangeMemory 256), by decide⟩
theorem witness_FetchBeyondTopFaults :
    ∀ pc ∈ [254, 255, 256], ∃ s : State, s.run = .running ∧ s.pc = pc ∧ 254 ≤ s.pc ∧ s.pc ≤ 256 :=
  by
  intro pc h
  refine ⟨{ base with pc := pc }, rfl, rfl, ?_⟩
  simp only [List.mem_cons, List.not_mem_nil, or_false] at h
  rcases h with rfl | rfl | rfl <;> decide
theorem witness_IllegalOpcodeFaults :
    ∃ s : State, s.run = .running ∧ s.pc = 253 ∧
      s.byteAt s.pc ∉ [0x01, 0x11, 0x45, 0x46, 0x47, 0x50, 0x54, 0x55, 0x56, 0x69,
        0x82, 0xA0, 0xA2, 0xA4, 0xA7, 0xA8, 0xAA, 0xAB, 0xAC, 0xAD] :=
  ⟨code [0x21] { base with pc := 253 }, by decide⟩
theorem witness_FaultsArePrecise :
    ∃ s t : State, s.run = .running ∧ step s = .next t ∧ t.run = .faulted :=
  ⟨State.reset, _, rfl, rfl, rfl⟩
theorem witness_EveryFaultHasItsCause_fetch :
    ∃ s t : State, s.pc = 256 ∧ s.run = .running ∧ step s = .next t ∧ t.run = .faulted :=
  ⟨{ base with pc := 256 }, _, rfl, rfl, rfl, rfl⟩
theorem witness_EveryFaultHasItsCause_opcode :
    ∃ s t : State, s.pc ≤ 256 ∧ s.run = .running ∧ step s = .next t ∧
      t.cause = some (.illegalOpcode 0x00 0) :=
  ⟨State.reset, _, by decide, rfl, rfl, rfl⟩
theorem witness_EveryFaultHasItsCause_register :
    ∃ s t : State, s.pc ≤ 256 ∧ s.run = .running ∧ step s = .next t ∧
      t.cause = some (.outOfRangeRegister 8) :=
  ⟨run0 [0xA0, 7, 8], _, by decide, rfl, rfl, rfl⟩
theorem witness_EveryFaultHasItsCause_first_register :
    ∃ s t : State, s.pc ≤ 256 ∧ s.run = .running ∧ step s = .next t ∧
      t.cause = some (.outOfRangeRegister 9) :=
  ⟨{ run0 [0x46, 9, 8] with sp := 255 }, _, by decide, rfl, rfl, rfl⟩
theorem witness_EveryFaultHasItsCause_taken_jump :
    ∃ s t : State, s.pc ≤ 256 ∧ s.run = .running ∧ step s = .next t ∧ s.fl = .unset ∧
      t.cause = some (.outOfRangeRegister 8) :=
  ⟨run0 [0x56, 8], _, by decide, rfl, rfl, rfl, rfl⟩
theorem witness_EveryFaultHasItsCause_push :
    ∃ s t : State, s.pc ≤ 256 ∧ s.run = .running ∧ step s = .next t ∧
      t.cause = some (.outOfRangeStack (-1)) :=
  ⟨{ run0 [0x45, 7] with sp := 0 }, _, by decide, rfl, rfl, rfl⟩
theorem witness_EveryFaultHasItsCause_pop :
    ∃ s t : State, s.pc ≤ 256 ∧ s.run = .running ∧ step s = .next t ∧
      t.cause = some (.outOfRangeStack 256) :=
  ⟨{ run0 [0x11] with sp := 255 }, _, by decide, rfl, rfl, rfl⟩
theorem witness_HaltedOnlyByHlt :
    ∃ s t : State, s.run = .running ∧ step s = .next t ∧ t.run = .halted :=
  ⟨run0 [0x01], _, rfl, rfl, rfl⟩
theorem witness_RunIsRepeatedStep :
    ∃ s t u : State, step s = .next t ∧ runFor 1 s = .next t ∧ u.run ≠ .running :=
  ⟨run0 [0x01], _, { base with run := .halted }, rfl, rfl, by decide⟩
theorem witness_StepKeepsInvariant :
    ∃ s t : State, s.Inv ∧ step s = .next t ∧ t.run = .running :=
  ⟨run0 [0x45, 7], _, by decide, rfl, rfl⟩
theorem witness_ReachableStatesMeetInvariant :
    ∃ s : State, Reachable s ∧ s.run = .halted :=
  ⟨_, .step _ _ (.launch [0x01] _ rfl) rfl, rfl⟩
theorem witness_LoadPlacesImage :
    ∃ (s : State) (m n : List Byte), s.Inv ∧ m.length = 256 ∧ 256 < n.length :=
  ⟨State.reset, List.replicate 256 1, List.replicate 257 1, by decide, List.length_replicate,
    by rw [List.length_replicate]; decide⟩
/-- The hypotheses of the result statements of one instruction: a running engine, register operands at
the ends of their range, a stack pointer and `pc` at the last value that does not fault, either kind of
divisor and of flag. HltHalts, AddWrapsModulo256, MulWrapsModulo256, BitwiseInstructionsWorkPerBit,
ShlShiftsByWholeCount, ShrShiftsByWholeCount, NotComplements, CmpOrdersSigned and JmpGoesToRegister ask
for the first line only. -/
theorem witness_results :
    ∃ (a b : Byte) (s : State), s.run = .running ∧ a.toNat = 7 ∧ b.toNat = 0 :=
  ⟨7, 0, base, by decide⟩
theorem witness_LdiLoadsImmediate :
    ∃ (a c : Byte) (s : State), s.run = .running ∧ a.toNat = 7 ∧ c.toNat = 8 :=
  ⟨7, 8, base, by decide⟩
theorem witness_PrnEmitsRegister :
    ∃ (a c : Byte) (s : State), s.run = .running ∧ a.toNat = 7 ∧ 8 ≤ c.toNat ∧ c.toNat = 255 :=
  ⟨7, 255, base, by decide⟩
theorem witness_ShiftCounts :
    ∃ (a b : Byte) (s : State) (_ : a.toNat < 8) (hb : b.toNat < 8), s.run = .running ∧
      8 ≤ s.regs[b.toNat].toNat :=
  ⟨0, 1, regs2 0 1 1 8 base, by decide, by decide, by decide⟩
theorem witness_ModStoresQuotient_nonzero :
    ∃ (a b : Byte) (s : State) (_ : a.toNat < 8) (hb : b.toNat < 8), s.run = .running ∧
      s.regs[b.toNat] ≠ 0 :=
  ⟨0, 1, regs2 0 255 1 1 base, by decide, by decide, by decide⟩
theorem witness_ModStoresQuotient_zero :
    ∃ (a b : Byte) (s : State) (_ : a.toNat < 8) (hb : b.toNat < 8), s.run = .running ∧
      s.regs[b.toNat] = 0 :=
  ⟨7, 6, base, by decide, by decide, by decide⟩
theorem witness_PushStoresBelowStackPointer :
    ∃ (a c : Byte) (s u : State), s.run = .running ∧ a.toNat = 7 ∧ s.sp = 1 ∧ s.sp ≠ 0 ∧
      Memory.wf s.mem = true ∧ 8 ≤ c.toNat ∧ u.run = .running ∧ u.sp = 0 :=
  ⟨7, 8, { base with sp := 1 }, { base with sp := 0 }, by decide⟩
theorem witness_PopLoadsFromStackPointer :
    ∃ (a : Byte) (s : State), a.toNat = 7 ∧ s.run = .running ∧ s.sp = 254 ∧ s.sp ≠ 255 :=
  ⟨7, { base with sp := 254 }, by decide⟩
theorem witness_CallPushesReturnAddress :
    ∃ (a : Byte) (s : State), a.toNat = 7 ∧ s.run = .running ∧ s.sp ≠ 0 ∧ s.sp = 1 ∧ s.pc = 253 ∧
      Memory.wf s.mem = true :=
  ⟨7, { base with sp := 1, pc := 253 }, by decide⟩
theorem witness_RetPopsProgramCounter :
    ∃ s : State, s.run = .running ∧ s.sp ≠ 255 ∧ s.sp = 254 :=
  ⟨{ base with sp := 254 }, by decide⟩
theorem witness_ConditionalJumpsTestEqual :
    ∃ (a c : Byte) (s u : State), s.run = .running ∧ u.run = .running ∧ a.toNat = 7 ∧
      c.toNat = 255 ∧ s.fl = .equal ∧ u.fl ≠ .equal :=
  ⟨7, 255, { base with fl := .equal }, base, by decide⟩
theorem witness_FirstRegisterIndexFaults :
    ∃ (a b : Byte) (s u : State), 8 ≤ a.toNat ∧ a.toNat = 8 ∧ b.toNat = 255 ∧ s.fl = .equal ∧
      u.fl ≠ .equal :=
  ⟨8, 255, { base with fl := .equal }, base, by decide⟩
theorem witness_SecondRegisterIndexFaults :
    ∃ a b : Byte, a.toNat < 8 ∧ a.toNat = 7 ∧ 8 ≤ b.toNat ∧ b.toNat = 8 :=
  ⟨7, 8, by decide⟩
theorem witness_StackPointerRangeFaults :
    ∃ (a : Byte) (s u : State), a.toNat < 8 ∧ s.sp = 0 ∧ u.sp = 255 :=
  ⟨7, { base with sp := 0 }, { base with sp := 255 }, by decide⟩
theorem witness_WellFormedNeverFaultsOnRegister :
    ∃ (i : Instr) (s t : State), i.wellFormed = true ∧ s.cause = none ∧ exec i s = .next t ∧
      t.cause = some (.outOfRangeStack (-1)) :=
  ⟨.push 7, { base with sp := 0 }, _, by decide, rfl, rfl, rfl⟩
theorem witness_AluFrame :
    ∃ s t u v : State, exec (.mod 0 1) s = .next t ∧ t.diag ≠ s.diag ∧
      exec (.add 7 8) u = .next v ∧ v.run = .faulted :=
  ⟨base, _, base, _, rfl, by decide, rfl, rfl⟩
theorem witness_CompareAndJumpFrame :
    ∃ s t u : State, exec (.cmp 0 7) s = .next t ∧ exec (.jne 7) s = .next u :=
  ⟨base, _, _, rfl, rfl⟩
theorem witness_HltLdiPrnFrame :
    ∃ s t u v : State, exec .hlt s = .next t ∧ exec (.ldi 7 0) s = .next u ∧
      exec (.prn 8) s = .next v :=
  ⟨base, _, _, _, rfl, rfl, rfl⟩
theorem witness_PushAndCallFrame :
    ∃ (s t u : State) (addr : Nat), exec (.push 7) s = .next t ∧ exec (.call 7) s = .next u ∧
      addr ≠ pushAddress s :=
  ⟨{ base with sp := 1 }, _, _, 1, rfl, rfl, by decide⟩
theorem witness_PopAndRetFrame :
    ∃ s t u : State, exec (.pop 7) s = .next t ∧ exec .ret s = .next u ∧ u.sp ≠ s.sp :=
  ⟨{ base with sp := 254 }, _, _, rfl, rfl, by decide⟩
theorem witness_FlagSetByCompareReadByJumps :
    ∃ (s t u v w : State) (i : Instr), step s = .next t ∧ t.fl ≠ s.fl ∧
      (∀ a b, i ≠ .jeq a ∧ i ≠ .jne a ∧ i ≠ .cmp a b) ∧ exec i s = .next u ∧
      exec (.cmp 0 7) s = .next v ∧ exec (.cmp 7 8) s = .next w :=
  ⟨run0 [0xA7, 0, 7], _, _, _, _, .add 0 7, rfl, by decide, fun _ _ => ⟨nofun, nofun, nofun⟩,
    rfl, rfl, rfl⟩
theorem witness_OnlyEqualityOfFlagMatters :
    ∃ (s : State) (f : Machine.Flag), s.fl ≠ .equal ∧ f ≠ .equal ∧ s.fl ≠ f :=
  ⟨base, .greater, by decide⟩
theorem witness_StackPointerMovers_down :
    ∃ s t : State, step s = .next t ∧ t.sp.toNat + 1 = s.sp.toNat :=
  ⟨{ run0 [0x45, 7] with sp := 1 }, _, rfl, rfl⟩
theorem witness_StackPointerMovers_up :
    ∃ s t : State, step s = .next t ∧ t.sp.toNat = s.sp.toNat + 1 :=
  ⟨{ run0 [0x46, 7] with sp := 254 }, _, rfl, rfl⟩
theorem witness_StackPointerIgnoresRegisters :
    ∃ s t : State, step s = .next t ∧ t.sp ≠ s.sp :=
  ⟨run0 [0x45, 7], _, rfl, by decide⟩
theorem witness_MemoryWriters :
    ∃ (s t : State) (addr : Nat), step s = .next t ∧ t.byteAt addr ≠ s.byteAt addr :=
  ⟨{ run0 [0x45, 7] with sp := 1 }, _, 0, rfl, by decide⟩
theorem witness_RegisterWriters :
    ∃ (s t : State) (r : Fin 8), step s = .next t ∧ t.reg r ≠ s.reg r :=
  ⟨run0 [0x82, 7, 0], _, 7, rfl, by decide⟩
theorem witness_StreamWriters :
    ∃ s t u v : State, step s = .next t ∧ t.out ≠ s.out ∧ step u = .next v ∧ v.diag ≠ u.diag :=
  ⟨run0 [0x47, 7], _, run0 [0xA4, 7, 0], _, rfl, by decide, rfl, by decide⟩
theorem witness_PushedByteIsFetched_legal :
    ∃ (a : Byte) (s t u : State) (ha : a.toNat < 8) (i : Instr), s.Inv ∧ s.run = .running ∧ s.sp ≠ 0 ∧
      exec (.push a) s = .next t ∧ u.mem = t.mem ∧ u.pc = pushAddress s ∧ u.pc ≤ 253 ∧
      u.run = .running ∧
      decode s.regs[a.toNat] (u.byteAt (u.pc + 1)) (u.byteAt (u.pc + 2)) = .ok i :=
  ⟨0, regs2 0 0x01 1 0 { base with sp := 254 }, _,
    code [0x01] { base with pc := 253 }, by decide, .hlt, by decide, rfl, by decide, rfl, rfl, rfl,
    by decide, rfl, by decide⟩
theorem witness_PushedByteIsFetched_illegal :
    ∃ (a : Byte) (s t u : State) (ha : a.toNat < 8) (e : DecodeError), s.Inv ∧ s.run = .running ∧
      s.sp ≠ 0 ∧ exec (.push a) s = .next t ∧ u.mem = t.mem ∧ u.pc = pushAddress s ∧ u.pc ≤ 253 ∧
      u.run = .running ∧
      decode s.regs[a.toNat] (u.byteAt (u.pc + 1)) (u.byteAt (u.pc + 2)) = .error e :=
  ⟨7, { base with sp := 1 }, _, code [0xF4] { base with pc := 0 }, by decide, .illegalOpcode 0xF4,
    by decide, rfl, by decide, rfl, rfl, rfl, by decide, rfl, by decide⟩
theorem witness_PushPopCopies :
    ∃ (a b : Byte) (s : State), a.toNat < 8 ∧ b.toNat < 8 ∧ a ≠ b ∧ s.Inv ∧ s.run = .running ∧
      s.sp ≠ 0 ∧ s.sp = 1 :=
  ⟨0, 7, { base with sp := 1 }, by decide⟩
theorem witness_CallRetResumes :
    ∃ (a : Byte) (s t u : State), a.toNat < 8 ∧ s.Inv ∧ s.run = .running ∧ s.sp ≠ 0 ∧ s.pc ≤ 253 ∧
      exec (.call a) s = .next t ∧ u.run = .running ∧ u.sp = t.sp ∧
      u.byteAt u.sp.toNat = t.byteAt t.sp.toNat :=
  ⟨7, { base with sp := 1, pc := 253 }, _, { base with sp := 0, mem := [(0, 255)] }, by decide, by decide,
    rfl, by decide, by decide, rfl, rfl, rfl, rfl⟩
theorem witness_JumpsFollowEarlierCompare :
    ∃ (a b j : Byte) (s t u : State) (_ : a.toNat < 8) (_ : b.toNat < 8) (_ : j.toNat < 8),
      s.run = .running ∧ exec (.cmp a b) s = .next t ∧ u.fl = t.fl ∧ u.run = .running :=
  ⟨0, 7, 7, base, _, { base with fl := .greater }, by decide, by decide, by decide, rfl, rfl, rfl, rfl⟩

end Sys2Proof.Tests
end

/-! SUPPORT. The state between cycles: what one action can do to it, what a whole step can do, and the
rules of 10_state that follow. -/

namespace Sys2Proof.Machine

/-! ### What one action can do -/

/-- The register in which LDI or an ALU instruction leaves its result: its first operand (R111, R130,
R140). -/
def resultRegister : Instr → Option Byte
  | .ldi a _ | .add a _ | .mul a _ | .and a _ | .or a _ | .xor a _ | .shl a _ | .shr a _ | .mod a _
  | .not a => some a
  | _ => none

/-- Everything that an action begun in `s` can do to the state when it does not fault. -/
inductive ActionEffect (s : State) : Instr → State → Prop
  | halt : ActionEffect s .hlt (s.setRun .halted)
  | result {i : Instr} {a : Byte} (v : Byte) (hi : resultRegister i = some a) (ha : a.toNat < 8) :
      ActionEffect s i (s.setRegs (s.regs.set a.toNat v))
  | print {a : Byte} (ha : a.toNat < 8) : ActionEffect s (.prn a) (emitOut s s.regs[a.toNat])
  | divisionByZero {a b : Byte} (hb : b.toNat < 8) (hz : s.regs[b.toNat] = 0) :
      ActionEffect s (.mod a b) (emitDiag s .divisionByZero)
  | compare {a b : Byte} (f : Flag) : ActionEffect s (.cmp a b) (s.setFl f)
  | push {a : Byte} (v : Byte) (ha : a.toNat < 8) (hs : s.sp ≠ 0) : ActionEffect s (.push a)
      ((s.setSp (s.sp - 1)).setMem (Memory.write s.mem (pushAddress s) v))
  | call {a : Byte} (v target : Byte) (ha : a.toNat < 8) (hs : s.sp ≠ 0) : ActionEffect s (.call a)
      (((s.setSp (s.sp - 1)).setMem (Memory.write s.mem (pushAddress s) v)).setPc target.toNat)
  | pop {a : Byte} (v : Byte) (ha : a.toNat < 8) (hs : s.sp ≠ 255) : ActionEffect s (.pop a)
      ((s.setSp (s.sp + 1)).setRegs (s.regs.set a.toNat v))
  | ret (target : Byte) (hs : s.sp ≠ 255) :
      ActionEffect s .ret ((s.setSp (s.sp + 1)).setPc target.toNat)
  | jump {i : Instr} {a : Byte} (hi : i = .jmp a ∨ i = .jeq a ∨ i = .jne a) (p : Nat)
      (hp : p < 256 ∨ p = s.pc + 2) : ActionEffect s i (s.setPc p)

/-- The ALU instructions' shared action writes its first operand's register. -/
theorem aluAction_effect {f : Byte → Byte → Byte} {i : Instr} {a b : Byte} {s s' : State}
    (hi : resultRegister i = some a) (h : aluAction f a b s = .ok s') : ActionEffect s i s' := by
  obtain ⟨ha, _, rfl⟩ := aluAction_ok h
  exact .result _ hi ha

/-- A jump's action assigns a byte, or the address after the two-byte jump, to `pc`. -/
theorem jumpAction_effect {taken : Bool} {i : Instr} {a : Byte} {s s' : State}
    (hi : i = .jmp a ∨ i = .jeq a ∨ i = .jne a) (h : jumpAction taken a s = .ok s') :
    ActionEffect s i s' := by
  obtain ⟨-, ha, rfl⟩ | ⟨-, rfl⟩ := jumpAction_ok h
  · exact .jump hi _ (.inl s.regs[a.toNat].isLt)
  · exact .jump hi _ (.inr rfl)

/-- An action that does not fault has one of the effects listed. -/
theorem action_effect {i : Instr} {s s' : State} (h : action i s = .ok s') : ActionEffect s i s' := by
  cases i with
  | hlt => cases h; exact .halt
  | ldi a imm => obtain ⟨ha, rfl⟩ := writeReg_ok h; exact .result _ rfl ha
  | prn a => obtain ⟨ha, rfl⟩ := prnAction_ok h; exact .print ha
  | add a b => exact aluAction_effect rfl h
  | mul a b => exact aluAction_effect rfl h
  | and a b => exact aluAction_effect rfl h
  | or a b => exact aluAction_effect rfl h
  | xor a b => exact aluAction_effect rfl h
  | shl a b => exact aluAction_effect rfl h
  | shr a b => exact aluAction_effect rfl h
  | mod a b =>
    obtain ⟨ha, hb, ⟨hz, rfl⟩ | ⟨-, rfl⟩⟩ := modAction_ok h
    · exact .divisionByZero hb hz
    · exact .result _ rfl ha
  | not a => obtain ⟨ha, rfl⟩ := notAction_ok h; exact .result _ rfl ha
  | cmp a b => obtain ⟨_, _, rfl⟩ := cmpAction_ok h; exact .compare _
  | push a => obtain ⟨ha, hs, rfl⟩ := pushAction_ok h; exact .push _ ha hs
  | pop a => obtain ⟨ha, hs, rfl⟩ := popAction_ok h; exact .pop _ ha hs
  | call a => obtain ⟨ha, hs, rfl⟩ := callAction_ok h; exact .call _ _ ha hs
  | ret => obtain ⟨hs, rfl⟩ := retAction_ok h; exact .ret _ hs
  | jmp a => exact jumpAction_effect (.inl rfl) h
  | jeq a => exact jumpAction_effect (.inr (.inl rfl)) h
  | jne a => exact jumpAction_effect (.inr (.inr rfl)) h

/-- The instructions that leave a result in a register, as a list. -/
theorem mem_of_resultRegister {i : Instr} {a : Byte} (h : resultRegister i = some a) :
    ∃ b, i ∈ [Instr.ldi a b, .add a b, .mul a b, .and a b, .or a b, .xor a b, .shl a b, .shr a b,
      .mod a b, .not a] := by
  cases i <;> simp_all [resultRegister]

/-! ### What a step can do -/

/-- A step leaves a stopped engine alone, or takes a fault, or completes the action of the instruction
at `pc` (then at most 253) and step 5 of the cycle. -/
theorem step_cases {s t : State} (h : step s = .next t) :
    (s.run ≠ .running ∧ t = s) ∨ (∃ c, t = raise c s) ∨
    (s.run = .running ∧ s.pc ≤ 253 ∧ ∃ i s', fetchDecode s = .ok i ∧ ActionEffect s i s' ∧
      t = autoAdvance i.opcode s') := by
  obtain hstop | ⟨-, c, -, ht⟩ | ⟨hrun, hpc, i, hi, hexec⟩ := step_next h
  · exact .inl hstop
  · exact .inr (.inl ⟨c, ht⟩)
  · obtain ⟨s', hact, ht⟩ | ⟨c, -, ht⟩ := exec_next hexec
    · exact .inr (.inr ⟨hrun, hpc, i, s', hi, action_effect hact, ht⟩)
    · exact .inr (.inl ⟨c, ht⟩)

/-- A step that changes a part `f` of the state which neither a fault nor step 5 touches has completed
an action that changed it. -/
theorem step_changed {α : Type} {f : State → α} {s t : State} (h : step s = .next t)
    (hraise : ∀ c, f (raise c s) = f s) (hadv : ∀ op s', f (autoAdvance op s') = f s')
    (hne : f t ≠ f s) :
    ∃ i s', fetchDecode s = .ok i ∧ ActionEffect s i s' ∧ f t = f s' ∧ f s' ≠ f s := by
  obtain ⟨-, rfl⟩ | ⟨c, rfl⟩ | ⟨-, -, i, s', hi, heff, rfl⟩ := step_cases h
  · exact absurd rfl hne
  · exact absurd (hraise c) hne
  · rw [hadv] at hne ⊢
    exact ⟨i, s', hi, heff, rfl, hne⟩

theorem exec_total (i : Instr) (s : State) : ∃ t, exec i s = .next t := by
  rw [exec_eq_finish]
  cases action i s with
  | ok s' => exact ⟨_, finish_ok i s s'⟩
  | error c => exact ⟨_, finish_error i s c⟩

theorem step_of_fetchDecode_ok {s : State} {i : Instr} (hr : s.run = .running)
    (hi : fetchDecode s = .ok i) : step s = exec i s := by
  rw [step_of_running hr, hi]

theorem step_of_fetchDecode_error {s : State} {c : Cause} (hr : s.run = .running)
    (hc : fetchDecode s = .error c) : step s = .next (raise c s) := by
  rw [step_of_running hr, hc]

/-! ### Reset values and codes -/

/-- Settles O17: every field of the reset state is the literal of R38. -/
theorem resetValues : Obligations.ResetValues :=
  ⟨by decide, rfl, rfl, rfl, rfl, rfl, fun _ => rfl, rfl, rfl⟩

/-- Settles O18: at reset memory lists no cell, `pc` is 0 and there is no cause. -/
theorem resetMeetsInvariant : Obligations.ResetMeetsInvariant := by
  refine ⟨rfl, Nat.zero_le _, ?_⟩
  simp [State.reset]

/-- Settles O60: the functions' values, case by case. -/
theorem flagBitsAndErrorCodes : Obligations.FlagBitsAndErrorCodes :=
  ⟨⟨rfl, rfl, rfl, rfl⟩, ⟨rfl, rfl, rfl, rfl, rfl⟩, fun _ _ _ => ⟨rfl, rfl, rfl, rfl⟩⟩

/-! ### The invariant -/

/-- Instructions are at most three bytes long (R72). -/
theorem opcodeLength_opcode_le (i : Instr) : opcodeLength i.opcode ≤ 3 := by
  have := operands_length_le i
  rw [opcodeLength, opcodeNops_opcode]
  omega

theorem autoAdvance_pc (op : Byte) (s : State) : (autoAdvance op s).pc =
    if s.run = .running ∧ opcodeSetsPc op = false then s.pc + opcodeLength op else s.pc := by
  unfold autoAdvance
  split <;> rfl

theorem ActionEffect.wf_mem {i : Instr} {s s' : State} (h : ActionEffect s i s')
    (hwf : Memory.wf s.mem = true) : Memory.wf s'.mem = true := by
  cases h with
  | push v => exact Memory.wf_write v (pushAddress_lt s) hwf
  | call v => exact Memory.wf_write v (pushAddress_lt s) hwf
  | _ => exact hwf

/-- An action moves `pc` only where step 5 adds nothing to it, and then to 0 to 255 or past the
two-byte jump. -/
theorem ActionEffect.pc_cases {i : Instr} {s s' : State} (h : ActionEffect s i s') :
    s'.pc = s.pc ∨ (opcodeSetsPc i.opcode = true ∧ (s'.pc < 256 ∨ s'.pc = s.pc + 2)) := by
  cases h with
  | call v target => exact .inr ⟨opcodeSetsPc_call, .inl target.isLt⟩
  | ret target => exact .inr ⟨opcodeSetsPc_ret, .inl target.isLt⟩
  | jump hi p hp =>
    have hset : opcodeSetsPc i.opcode = true := by
      obtain rfl | rfl | rfl := hi
      · exact opcodeSetsPc_jmp
      · exact opcodeSetsPc_jeq
      · exact opcodeSetsPc_jne
    exact .inr ⟨hset, hp⟩
  | _ => exact .inl rfl

/-- A cycle that passed the fetch check ends with `pc` at most 256 (R26). -/
theorem ActionEffect.autoAdvance_pc_le {i : Instr} {s s' : State} (h : ActionEffect s i s')
    (hpc : s.pc ≤ 253) : (autoAdvance i.opcode s').pc ≤ 256 := by
  have hlen := opcodeLength_opcode_le i
  rw [autoAdvance_pc]
  obtain hsame | ⟨hset, hto⟩ := h.pc_cases
  · split <;> omega
  · rw [if_neg (by simp [hset])]
    omega

/-- An action that does not fault records no cause and does not enter FAULTED. -/
theorem ActionEffect.run_cause {i : Instr} {s s' : State} (h : ActionEffect s i s') :
    (s'.run = s.run ∨ s'.run = .halted) ∧ s'.cause = s.cause := by
  cases h with
  | halt => exact ⟨.inr rfl, rfl⟩
  | _ => exact ⟨.inl rfl, rfl⟩

theorem raise_inv {s : State} (h : s.Inv) (c : Cause) : (raise c s).Inv := by
  obtain ⟨hwf, hpc, -⟩ := h
  exact ⟨hwf, hpc, by simp⟩

/-- Settles O19: the cases of a step, and for a completed action the invariant's three parts. -/
theorem stepKeepsInvariant : Obligations.StepKeepsInvariant := by
  intro s t h hstep
  obtain ⟨-, rfl⟩ | ⟨c, rfl⟩ | ⟨hrun, hpc, i, s', -, heff, rfl⟩ := step_cases hstep
  · exact h
  · exact raise_inv h c
  · obtain ⟨hwf, -, hcause⟩ := h
    obtain ⟨hrun', hcause'⟩ := heff.run_cause
    refine ⟨by simpa using heff.wf_mem hwf, heff.autoAdvance_pc_le hpc, ?_⟩
    rw [hrun] at hcause hrun'
    obtain hr | hr := hrun' <;> simpa [hr, hcause'] using hcause

theorem launch_inv {image : List Byte} {s : State} (h : launch image = .ok s) : s.Inv := by
  unfold launch load at h
  split at h
  · contradiction
  · next hlen =>
    cases h
    obtain ⟨hwf, hpc, hcause⟩ := resetMeetsInvariant
    exact ⟨Memory.wf_writeBlock (by simpa [Config.LOAD_BASE] using hlen) hwf, hpc, hcause⟩

/-- Settles O20: by induction on the run, from the launch state on. -/
theorem reachableStatesMeetInvariant : Obligations.ReachableStatesMeetInvariant := by
  intro s h
  induction h with
  | launch image s h => exact launch_inv h
  | step s t _ h ih => exact stepKeepsInvariant s t ih h

/-! ### Who writes what -/

/-- Only CMP sets the flag (R29). -/
theorem ActionEffect.fl_eq {i : Instr} {s s' : State} (h : ActionEffect s i s')
    (hcmp : ∀ a b, i ≠ .cmp a b) : s'.fl = s.fl := by
  cases h with
  | compare => exact absurd rfl (hcmp _ _)
  | _ => rfl

/-- A decrement behind the check of R160 does not wrap. -/
theorem toNat_sub_one {v : Byte} (h : v ≠ 0) : (v - 1).toNat + 1 = v.toNat := by bv_omega

/-- An increment behind the check of R160 does not wrap. -/
theorem toNat_add_one {v : Byte} (h : v ≠ 255) : (v + 1).toNat = v.toNat + 1 := by bv_omega

/-- The cell a push stores to, where it does not fault, is the one below the stack pointer. -/
theorem pushAddress_of_ne {s : State} (h : s.sp ≠ 0) : pushAddress s = s.sp.toNat - 1 :=
  Nat.eq_sub_of_add_eq (toNat_sub_one h)

/-- Settles O51: of the actions that change the stack pointer two decrement and two increment it, each
behind its range check. -/
theorem stackPointerMovers : Obligations.StackPointerMovers := by
  intro s t h hne
  obtain ⟨i, s', hi, heff, ht, hne⟩ :=
    step_changed (f := State.sp) h (fun _ => rfl) autoAdvance_sp hne
  rw [ht]
  cases heff with
  | push v ha hs => exact .inl ⟨⟨_, .inl hi⟩, toNat_sub_one hs⟩
  | call v target ha hs => exact .inl ⟨⟨_, .inr hi⟩, toNat_sub_one hs⟩
  | pop v ha hs => exact .inr ⟨.inr ⟨_, hi⟩, toNat_add_one hs⟩
  | ret target hs => exact .inr ⟨.inl hi, toNat_add_one hs⟩
  | _ => exact absurd rfl hne

/-- Settles O53: only the two pushing actions write memory, and the write leaves every other cell. -/
theorem memoryWriters : Obligations.MemoryWriters := by
  intro s t addr h hne
  obtain ⟨i, s', hi, heff, -, hne⟩ := step_changed (f := fun u => u.byteAt addr) h (fun _ => rfl)
    (fun op u => by simp only [State.byteAt, autoAdvance_mem]) hne
  have haddr {v : Byte} (hne : Memory.read (Memory.write s.mem (pushAddress s) v) addr ≠
      s.byteAt addr) : addr = pushAddress s := by
    by_contra hother
    exact hne (Memory.read_write_other hother _ _)
  cases heff with
  | push v ha hs => exact ⟨(haddr hne).trans (pushAddress_of_ne hs), hs, _, .inl hi⟩
  | call v target ha hs => exact ⟨(haddr hne).trans (pushAddress_of_ne hs), hs, _, .inr hi⟩
  | _ => exact absurd rfl hne

/-- A write to the register file changes only the register written. -/
theorem eq_of_set_ne {v : Vector Byte 8} {a b : Byte} {r : Fin 8} (ha : a.toNat < 8)
    (hne : (v.set a.toNat b)[r] ≠ v[r]) : a.toNat = r.val := by
  by_contra hother
  exact hne (regs_set_other v ha b r (Ne.symm hother))

/-- Settles O54: the actions that write a register write the one of their first operand. -/
theorem registerWriters : Obligations.RegisterWriters := by
  intro s t r h hne
  obtain ⟨i, s', hi, heff, -, hne⟩ := step_changed (f := fun u => u.reg r) h (fun _ => rfl)
    (fun op u => by simp only [State.reg, autoAdvance_regs]) hne
  cases heff with
  | @result i a v hres ha =>
    obtain ⟨b, hb⟩ := mem_of_resultRegister hres
    exact ⟨a, b, i, hi, eq_of_set_ne ha hne, List.mem_append_left [Instr.pop a] hb⟩
  | pop v ha hs => exact ⟨_, 0, _, hi, eq_of_set_ne ha hne, by simp⟩
  | _ => exact absurd rfl hne

/-- The stream `out` after a step (R36, R112). -/
theorem step_out {s t : State} (h : step s = .next t) :
    t.out = s.out ∨ ∃ (a : Byte) (ha : a.toNat < 8), fetchDecode s = .ok (.prn a) ∧
      t.out = s.out ++ [s.regs[a.toNat]] := by
  by_contra hc
  rw [not_or] at hc
  obtain ⟨i, s', hi, heff, ht, hne⟩ :=
    step_changed (f := State.out) h (fun _ => rfl) autoAdvance_out hc.1
  cases heff with
  | print ha => exact hc.2 ⟨_, ha, hi, ht⟩
  | _ => exact hne rfl

/-- The stream `diag` after a step (R36, R204). -/
theorem step_diag {s t : State} (h : step s = .next t) :
    t.diag = s.diag ∨ ∃ (a b : Byte) (hb : b.toNat < 8), fetchDecode s = .ok (.mod a b) ∧
      s.regs[b.toNat] = 0 ∧ t.diag = s.diag ++ [.divisionByZero] := by
  by_contra hc
  rw [not_or] at hc
  obtain ⟨i, s', hi, heff, ht, hne⟩ :=
    step_changed (f := State.diag) h (fun _ => rfl) autoAdvance_diag hc.1
  cases heff with
  | divisionByZero hb hz => exact hc.2 ⟨_, _, hb, hi, hz, ht⟩
  | _ => exact hne rfl

/-- Settles O55: each stream by its own writer. -/
theorem streamWriters : Obligations.StreamWriters := fun _ _ h => ⟨step_out h, step_diag h⟩

/-- Settles O43: a completed ALU action is a write of its first operand's register or, for MOD, a
diagnostic; a fault changes only `run` and `cause`. -/
theorem aluFrame : Obligations.AluFrame := by
  intro a b s t i hmem h
  simp only [List.mem_cons, List.not_mem_nil, or_false] at hmem
  have hres : resultRegister i = some a := by
    obtain rfl | rfl | rfl | rfl | rfl | rfl | rfl | rfl | rfl := hmem <;> rfl
  obtain ⟨s', hact, rfl⟩ | ⟨c, -, rfl⟩ := exec_next h
  · obtain ⟨p, hadv⟩ := autoAdvance_eq i.opcode s'
    rw [hadv]
    cases action_effect hact with
    | @result _ a' v hi ha =>
      obtain rfl : a' = a := Option.some.inj (hi.symm.trans hres)
      exact ⟨regs_set_other s.regs ha v, rfl, rfl, fun _ => rfl, rfl, .inl rfl, .inl ⟨rfl, rfl⟩⟩
    | @divisionByZero a' b' hb hz =>
      have hi : Instr.mod a' b' = .mod a b := by simpa using hmem
      exact ⟨fun _ _ => rfl, rfl, rfl, fun _ => rfl, rfl, .inr ⟨hi, rfl⟩, .inl ⟨rfl, rfl⟩⟩
    | jump hi => obtain rfl | rfl | rfl := hi <;> cases hres
    | _ => cases hres
  · exact ⟨fun _ _ => rfl, rfl, rfl, fun _ => rfl, rfl, .inl rfl, .inr ⟨c, rfl, rfl⟩⟩

/-! ### What reads the flag -/

/-- A continuation that commutes with a change `k` of the final state does so after any first computation. -/
theorem bind_eq_map {α : Type} {x : Except Cause α} {g g' : α → Except Cause State} {k : State → State}
    (h : ∀ v, g' v = (g v).map k) : (x >>= g') = (x >>= g).map k := by
  cases x with
  | ok v => exact h v
  | error c => rfl

theorem writeReg_setFl (s : State) (f : Flag) (i v : Byte) :
    writeReg (s.setFl f) i v = (writeReg s i v).map (·.setFl f) := by
  unfold writeReg
  split <;> rfl

theorem aluAction_setFl (g : Byte → Byte → Byte) (a b : Byte) (s : State) (f : Flag) :
    aluAction g a b (s.setFl f) = (aluAction g a b s).map (·.setFl f) :=
  bind_eq_map fun _ => bind_eq_map fun _ => writeReg_setFl s f a _

theorem modAction_setFl (a b : Byte) (s : State) (f : Flag) :
    modAction a b (s.setFl f) = (modAction a b s).map (·.setFl f) :=
  bind_eq_map fun _ => bind_eq_map fun vb => by
    split
    · rfl
    · exact writeReg_setFl s f a _

theorem pushByte_setFl (s : State) (f : Flag) (v : Byte) :
    pushByte (s.setFl f) v = (pushByte s v).map (·.setFl f) := by
  by_cases hs : s.sp = 0
  · rw [pushByte_zero hs, pushByte_zero (s := s.setFl f) hs]; rfl
  · rw [pushByte_of_ne hs, pushByte_of_ne (s := s.setFl f) hs]; rfl

theorem popAction_setFl (a : Byte) (s : State) (f : Flag) :
    popAction a (s.setFl f) = (popAction a s).map (·.setFl f) :=
  bind_eq_map fun _ => by
    by_cases hs : s.sp = 255
    · rw [popByte_top hs, popByte_top (s := s.setFl f) hs]; rfl
    · rw [popByte_of_ne hs, popByte_of_ne (s := s.setFl f) hs]
      exact writeReg_setFl (s.setSp (s.sp + 1)) f a _

theorem callAction_setFl (a : Byte) (s : State) (f : Flag) :
    callAction a (s.setFl f) = (callAction a s).map (·.setFl f) :=
  bind_eq_map fun target => by
    rw [show returnAddress (s.setFl f) = returnAddress s from rfl, pushByte_setFl]
    cases pushByte s (returnAddress s) <;> rfl

theorem retAction_setFl (s : State) (f : Flag) :
    retAction (s.setFl f) = (retAction s).map (·.setFl f) := by
  unfold retAction
  by_cases hs : s.sp = 255
  · rw [popByte_top hs, popByte_top (s := s.setFl f) hs]; rfl
  · rw [popByte_of_ne hs, popByte_of_ne (s := s.setFl f) hs]; rfl

theorem jumpAction_setFl (taken : Bool) (a : Byte) (s : State) (f : Flag) :
    jumpAction taken a (s.setFl f) = (jumpAction taken a s).map (·.setFl f) := by
  cases taken with
  | false => rfl
  | true => exact bind_eq_map fun _ => rfl

/-- An action that is not CMP's does the same with another flag and keeps that flag, where a
conditional jump's test (R30) does not see the difference. -/
theorem action_setFl {i : Instr} {s : State} {f : Flag} (hcmp : ∀ a b, i ≠ .cmp a b)
    (hjump : (∃ a, i = .jeq a ∨ i = .jne a) → flagIsEqual f = flagIsEqual s.fl) :
    action i (s.setFl f) = (action i s).map (·.setFl f) := by
  cases i with
  | hlt => rfl
  | ldi a imm => exact writeReg_setFl s f a _
  | prn a => exact bind_eq_map fun _ => rfl
  | add a b => exact aluAction_setFl aluAdd a b s f
  | mul a b => exact aluAction_setFl aluMul a b s f
  | and a b => exact aluAction_setFl aluAnd a b s f
  | or a b => exact aluAction_setFl aluOr a b s f
  | xor a b => exact aluAction_setFl aluXor a b s f
  | shl a b => exact aluAction_setFl aluShl a b s f
  | shr a b => exact aluAction_setFl aluShr a b s f
  | mod a b => exact modAction_setFl a b s f
  | not a => exact bind_eq_map fun _ => writeReg_setFl s f a _
  | cmp a b => exact absurd rfl (hcmp a b)
  | push a => exact bind_eq_map fun v => pushByte_setFl s f v
  | pop a => exact popAction_setFl a s f
  | call a => exact callAction_setFl a s f
  | ret => exact retAction_setFl s f
  | jmp a => exact jumpAction_setFl true a s f
  | jeq a =>
    rw [action, State.setFl_fl, hjump ⟨a, .inl rfl⟩]
    exact jumpAction_setFl _ a s f
  | jne a =>
    rw [action, State.setFl_fl, hjump ⟨a, .inr rfl⟩]
    exact jumpAction_setFl _ a s f

theorem autoAdvance_setFl (op : Byte) (s : State) (f : Flag) :
    autoAdvance op (s.setFl f) = (autoAdvance op s).setFl f := by
  unfold autoAdvance
  by_cases h : s.run = .running ∧ opcodeSetsPc op = false
  · rw [if_pos h]
    exact if_pos h
  · rw [if_neg h]
    exact if_neg h

theorem exec_setFl {i : Instr} {s t : State} {f : Flag} (hcmp : ∀ a b, i ≠ .cmp a b)
    (hjump : (∃ a, i = .jeq a ∨ i = .jne a) → flagIsEqual f = flagIsEqual s.fl)
    (h : exec i s = .next t) : exec i (s.setFl f) = .next (t.setFl f) := by
  rw [exec_eq_finish, action_setFl hcmp hjump]
  obtain ⟨s', hact, rfl⟩ | ⟨c, hact, rfl⟩ := exec_next h
  · rw [hact, ← autoAdvance_setFl]; rfl
  · rw [hact]; rfl

/-- CMP overwrites whatever flag it is given. -/
theorem action_cmp_setFl (a b : Byte) (s : State) (f : Flag) :
    action (.cmp a b) (s.setFl f) = action (.cmp a b) s := rfl

theorem exec_cmp_setFl {a b : Byte} {s t : State} (f : Flag) (h : exec (.cmp a b) s = .next t) :
    exec (.cmp a b) (s.setFl f) =
      .next (if a.toNat < 8 ∧ b.toNat < 8 then t else t.setFl f) := by
  rw [exec_eq_finish, action_cmp_setFl]
  obtain ⟨s', hact, rfl⟩ | ⟨c, hact, rfl⟩ := exec_next h
  · obtain ⟨ha, hb, -⟩ := cmpAction_ok hact
    rw [hact, if_pos ⟨ha, hb⟩, finish_ok]
  · obtain ⟨r, hr, hge, -⟩ := registerFault_mem (cmpAction_error hact)
    have hout : ¬(a.toNat < 8 ∧ b.toNat < 8) := by
      simp only [List.mem_cons, List.not_mem_nil, or_false] at hr
      obtain rfl | rfl := hr <;> omega
    rw [hact, if_neg hout, finish_error]
    rfl

/-- Settles O48: the effects of the actions for the writers, and the actions under another flag for
the readers. -/
theorem flagSetByCompareReadByJumps : Obligations.FlagSetByCompareReadByJumps := by
  refine ⟨fun s t h hne => ?_, fun i s t f hi h => ?_, fun a b s t f h => exec_cmp_setFl f h⟩
  · obtain ⟨i, s', hf, heff, -, hne⟩ :=
      step_changed (f := State.fl) h (fun _ => rfl) autoAdvance_fl hne
    by_contra hc
    exact hne (heff.fl_eq fun a b hi => hc ⟨a, b, hi ▸ hf⟩)
  · have hjump : ¬∃ a, i = .jeq a ∨ i = .jne a := by
      rintro ⟨a, rfl | rfl⟩
      · exact (hi a a).1 rfl
      · exact (hi a a).2.1 rfl
    exact exec_setFl (fun a b => (hi a b).2.2) (fun hj => absurd hj hjump) h

/-- The meanings other than CMP keep the flag. -/
theorem exec_fl {i : Instr} {s t : State} (hcmp : ∀ a b, i ≠ .cmp a b) (h : exec i s = .next t) :
    t.fl = s.fl := by
  obtain ⟨s', hact, rfl⟩ | ⟨c, -, rfl⟩ := exec_next h
  · rw [autoAdvance_fl, (action_effect hact).fl_eq hcmp]
  · rfl

/-- The fetch does not look at the flag. -/
theorem fetchDecode_setFl (s : State) (f : Flag) : fetchDecode (s.setFl f) = fetchDecode s := rfl

/-- A meaning run with another flag, neither flag EQUAL, ends in a state that differs at most so. -/
theorem exec_setFl_unequal {i : Instr} {s t : State} {f : Flag} (hs : s.fl ≠ .equal)
    (hf : f ≠ .equal) (h : exec i s = .next t) :
    ∃ g, exec i (s.setFl f) = .next (t.setFl g) ∧ (g = .equal ↔ t.fl = .equal) := by
  by_cases hcmp : ∃ a b, i = .cmp a b
  · obtain ⟨a, b, rfl⟩ := hcmp
    have hcmp := exec_cmp_setFl f h
    split at hcmp
    · exact ⟨t.fl, hcmp, Iff.rfl⟩
    · next hout =>
      refine ⟨f, hcmp, iff_of_false hf ?_⟩
      obtain ⟨s', hact, -⟩ | ⟨c, -, rfl⟩ := exec_next h
      · obtain ⟨ha, hb, -⟩ := cmpAction_ok hact
        exact absurd ⟨ha, hb⟩ hout
      · exact hs
  · have hcmp : ∀ a b, i ≠ .cmp a b := fun a b hi => hcmp ⟨a, b, hi⟩
    refine ⟨f, exec_setFl hcmp (fun _ => ?_) h, iff_of_false hf (exec_fl hcmp h ▸ hs)⟩
    simp [flagIsEqual, hs, hf]

/-- Settles O50: the fetch does not see the flag, and each meaning tells at most EQUAL from the rest. -/
theorem onlyEqualityOfFlagMatters : Obligations.OnlyEqualityOfFlagMatters := by
  intro s f hs hf
  have hkeep : f = .equal ↔ s.fl = .equal := iff_of_false hf hs
  by_cases hr : s.run = .running
  · cases hfetch : fetchDecode s with
    | ok i =>
      obtain ⟨t, ht⟩ := exec_total i s
      obtain ⟨g, hg, hiff⟩ := exec_setFl_unequal hs hf ht
      exact ⟨t, g, (step_of_fetchDecode_ok hr hfetch).trans ht,
        (step_of_fetchDecode_ok (s := s.setFl f) hr hfetch).trans hg, hiff⟩
    | error c =>
      exact ⟨raise c s, f, step_of_fetchDecode_error hr hfetch,
        step_of_fetchDecode_error (s := s.setFl f) hr hfetch, hkeep⟩
  · exact ⟨s, f, step_of_not_running hr, step_of_not_running (s := s.setFl f) hr, hkeep⟩

/-! ### What the stack pointer depends on -/

/-- The stack pointer after an instruction, from the instruction and the stack pointer before it alone
(R160 to R164). -/
def spAfter (i : Instr) (sp : Byte) : Byte :=
  match i with
  | .push a | .call a => if a.toNat < 8 ∧ sp ≠ 0 then sp - 1 else sp
  | .pop a => if a.toNat < 8 ∧ sp ≠ 255 then sp + 1 else sp
  | .ret => if sp ≠ 255 then sp + 1 else sp
  | _ => sp

theorem ActionEffect.sp_eq {i : Instr} {s s' : State} (h : ActionEffect s i s') :
    s'.sp = spAfter i s.sp := by
  cases h with
  | push v ha hs => exact (if_pos ⟨ha, hs⟩).symm
  | call v target ha hs => exact (if_pos ⟨ha, hs⟩).symm
  | pop v ha hs => exact (if_pos ⟨ha, hs⟩).symm
  | ret target hs => exact (if_pos hs).symm
  | result v hi =>
    cases i with
    | push | pop | call | ret => cases hi
    | _ => rfl
  | jump hi => obtain rfl | rfl | rfl := hi <;> rfl
  | _ => rfl

/-- A fault, of a register index or of the stack, leaves the stack pointer. -/
theorem spAfter_of_action_error {i : Instr} {s : State} {c : Cause} (h : action i s = .error c) :
    spAfter i s.sp = s.sp := by
  obtain hreg | ⟨-, ⟨hs, -, a, rfl | rfl⟩ | ⟨hs, -, rfl | ⟨a, rfl⟩⟩⟩ := action_error h
  · obtain ⟨r, hr, hge, -⟩ := registerFault_mem hreg
    cases i with
    | push a | call a | pop a =>
      obtain rfl : r = a := by simpa [registersUsed] using hr
      exact if_neg fun hok => Nat.not_lt.mpr hge hok.1
    | ret => cases hr
    | _ => rfl
  all_goals simp [spAfter, hs]

theorem exec_sp {i : Instr} {s t : State} (h : exec i s = .next t) : t.sp = spAfter i s.sp := by
  obtain ⟨s', hact, rfl⟩ | ⟨c, hact, rfl⟩ := exec_next h
  · rw [autoAdvance_sp, (action_effect hact).sp_eq]
  · exact (spAfter_of_action_error hact).symm

/-- The fetch does not look at the registers. -/
theorem fetchDecode_setRegs (s : State) (v : Vector Byte 8) :
    fetchDecode (s.setRegs v) = fetchDecode s := rfl

/-- Settles O52: the stack pointer after a step is a function of the stack pointer before it and of the
instruction fetched. -/
theorem stackPointerIgnoresRegisters : Obligations.StackPointerIgnoresRegisters := by
  intro s t v h
  by_cases hr : s.run = .running
  · cases hfetch : fetchDecode s with
    | ok i =>
      rw [step_of_fetchDecode_ok hr hfetch] at h
      obtain ⟨t', ht'⟩ := exec_total i (s.setRegs v)
      exact ⟨t', (step_of_fetchDecode_ok (s := s.setRegs v) hr hfetch).trans ht',
        (exec_sp ht').trans (exec_sp h).symm⟩
    | error c =>
      rw [step_of_fetchDecode_error hr hfetch] at h
      cases h
      exact ⟨_, step_of_fetchDecode_error (s := s.setRegs v) hr hfetch, rfl⟩
  · rw [step_of_not_running hr] at h
    cases h
    exact ⟨_, step_of_not_running (s := s.setRegs v) hr, rfl⟩

end Sys2Proof.Machine

/-! SUPPORT. Memory as program and data: what the host's load answers (20_memory R65), and that a pushed
byte is what the fetch reads (R57, R63). -/

namespace Sys2Proof.Machine

/-! ### The host's load -/

theorem load_of_le {image : List Byte} (s : State) (h : image.length ≤ 256) :
    load image s = .ok (s.setMem (Memory.writeBlock s.mem 0 image)) := if_neg (Nat.not_lt.mpr h)

theorem load_of_gt {image : List Byte} (s : State) (h : 256 < image.length) :
    load image s = .error .outOfRange := if_pos h

/-- Settles O21: a loaded image is one block write from address 0, whose bytes lie inside the block and
whose frame lies outside it. -/
theorem loadPlacesImage : Obligations.LoadPlacesImage := by
  rintro image s ⟨hwf, hpc, hcause⟩
  refine ⟨fun hlen => ?_, load_of_gt s⟩
  have hfit : 0 + image.length ≤ Config.MEMSIZE := (Nat.zero_add _).trans_le hlen
  refine ⟨_, load_of_le s hlen, ⟨Memory.wf_writeBlock hfit hwf, hpc, hcause⟩, fun k hk => ?_,
    fun k hk => ?_, rfl⟩
  · have hread := Memory.read_writeBlock_inside hwf hfit hk
    rwa [Nat.zero_add] at hread
  · exact Memory.read_writeBlock_outside (.inr ((Nat.zero_add _).trans_le hk))

/-! ### The fetch of a pushed byte -/

theorem fetchDecode_of_decode_ok {s : State} {i : Instr} (hpc : s.pc ≤ 253)
    (h : decode (s.byteAt s.pc) (s.byteAt (s.pc + 1)) (s.byteAt (s.pc + 2)) = .ok i) :
    fetchDecode s = .ok i := by
  rw [fetchDecode_of_le hpc, h]

theorem fetchDecode_of_decode_error {s : State} {e : DecodeError} (hpc : s.pc ≤ 253)
    (h : decode (s.byteAt s.pc) (s.byteAt (s.pc + 1)) (s.byteAt (s.pc + 2)) = .error e) :
    fetchDecode s = .error (.illegalOpcode (s.byteAt s.pc) s.pc) := by
  rw [fetchDecode_of_le hpc, h]

/-- The memory after a PUSH that does not fault (R161). -/
theorem exec_push_mem {a : Byte} {s t : State} (ha : a.toNat < 8) (hs : s.sp ≠ 0)
    (h : exec (.push a) s = .next t) :
    t.mem = Memory.write s.mem (pushAddress s) s.regs[a.toNat] := by
  have hact : action (.push a) s = .ok _ := pushAction_of_ne s ha hs
  rw [exec_eq_finish, hact, finish_ok] at h
  cases h
  exact autoAdvance_mem _ _

/-- Settles O56: the fetch reads the same memory that PUSH wrote, so its opcode is the pushed byte. -/
theorem pushedByteIsFetched : Obligations.PushedByteIsFetched := by
  rintro a s t u ha ⟨hwf, -, -⟩ - hs hpush hmem hpc hle hrun
  have hbyte : u.byteAt u.pc = s.regs[a.toNat] := by
    rw [State.byteAt, hmem, exec_push_mem ha hs hpush, hpc, Memory.read_write_same hwf]
  rw [← hbyte]
  exact ⟨fun i hi => step_of_fetchDecode_ok hrun (fetchDecode_of_decode_ok hle hi),
    fun e he => step_of_fetchDecode_error hrun (fetchDecode_of_decode_error hle he)⟩

end Sys2Proof.Machine

/-! SUPPORT. The encoding (30_encoding): the operand count, the length and the sets-PC bit of an opcode
byte, the bytes that no row answers for, and that decoding and encoding undo each other. -/

namespace Sys2Proof

/-! ### Fields of the opcode byte (R72, R73) -/

theorem opcodeNops_eq_div (op : Byte) : opcodeNops op = op.toNat / 64 := by
  have hlt := op.isLt
  rw [opcodeNops, BitVec.extractLsb'_toNat, Nat.shiftRight_eq_div_pow]
  omega

theorem opcodeSetsPc_iff (op : Byte) : opcodeSetsPc op = true ↔ op.toNat / 16 % 2 = 1 := by
  rw [opcodeSetsPc, BitVec.getLsbD, Nat.testBit_eq_decide_div_mod_eq, decide_eq_true_iff]

/-- The instructions that write `pc` themselves (R73). -/
theorem opcodeSetsPc_opcode_iff (i : Instr) : opcodeSetsPc i.opcode = true ↔
    i = .ret ∨ ∃ a, i = .call a ∨ i = .jmp a ∨ i = .jeq a ∨ i = .jne a := by
  cases i <;> simp [Instr.opcode]

/-! ### Illegal opcodes (R72, R82) -/

theorem decode_ok_nops_le {op a b : Byte} {i : Instr} (h : decode op a b = .ok i) :
    opcodeNops op ≤ 2 := by
  obtain ⟨hop, -⟩ := decode_ok h
  rw [← hop, opcodeNops_opcode]
  exact operands_length_le i

/-- No row of the dispatch table has both top bits set (R72). -/
theorem decode_of_nops_eq_three {op : Byte} (a b : Byte) (h : opcodeNops op = 3) :
    decode op a b = .error (.illegalOpcode op) := by
  cases hd : decode op a b with
  | ok i =>
    have := decode_ok_nops_le hd
    omega
  | error e => rw [decode_error hd]

/-- A byte is refused exactly when it is the opcode of no row. -/
theorem decode_eq_error_iff (op a b : Byte) : decode op a b = .error (.illegalOpcode op) ↔
    op ∉ opcodeTable.map OpcodeRow.opcode := by
  unfold decode
  split
  · next r hr =>
    have hop : r.opcode = op := by simpa using List.find?_some hr
    have hmem : op ∈ opcodeTable.map OpcodeRow.opcode :=
      List.mem_map.2 ⟨r, List.mem_of_find?_eq_some hr, hop⟩
    exact iff_of_false nofun (not_not_intro hmem)
  · next hnone =>
    have hrow : ∀ r ∈ opcodeTable, r.opcode ≠ op := by simpa using List.find?_eq_none.1 hnone
    refine iff_of_true rfl fun hmem => ?_
    obtain ⟨r, hr, hop⟩ := List.mem_map.1 hmem
    exact hrow r hr hop

/-- The opcode bytes of the dispatch table (R80), in rising order. -/
theorem opcodeTable_opcodes_perm : (opcodeTable.map OpcodeRow.opcode).Perm
    [0x01, 0x11, 0x45, 0x46, 0x47, 0x50, 0x54, 0x55, 0x56, 0x69,
      0x82, 0xA0, 0xA2, 0xA4, 0xA7, 0xA8, 0xAA, 0xAB, 0xAC, 0xAD] := by decide

/-- Settles O4: the bytes refused are those with no row, and the table's opcodes are the 20 listed. -/
theorem illegalOpcodesAreTheOthers : Obligations.IllegalOpcodesAreTheOthers := fun op a b =>
  (decode_eq_error_iff op a b).trans (not_congr opcodeTable_opcodes_perm.mem_iff)

/-! ### The round trip (R75, R76, R79, R87) -/

/-- A byte sequence decodes when its first byte does and its operand bytes are there; what is left are
the bytes after them. -/
theorem decodeBytes_cons_ok_iff {op : Byte} {bytes rest : List Byte} {i : Instr} :
    decodeBytes (op :: bytes) = .ok (i, rest) ↔
      decode op (bytes.getD 0 0) (bytes.getD 1 0) = .ok i ∧ opcodeNops op ≤ bytes.length ∧
        bytes.drop (opcodeNops op) = rest := by
  rw [decodeBytes]
  cases decode op (bytes.getD 0 0) (bytes.getD 1 0) with
  | error e => simp
  | ok j =>
    by_cases hlen : bytes.length < opcodeNops op
    · simp [hlen]
    · simp [hlen, Nat.not_lt.1 hlen]

/-- The two bytes fetched after the opcode are the first ones that follow it. -/
theorem take_fetched {bytes : List Byte} {n : Nat} (hn : n ≤ 2) (hlen : n ≤ bytes.length) :
    [bytes.getD 0 0, bytes.getD 1 0].take n = bytes.take n := by
  match bytes, n, hn, hlen with
  | _, 0, _, _ => rfl
  | _ :: _, 1, _, _ => rfl
  | _ :: _ :: _, 2, _, _ => rfl

/-- Settles O5: the operand bytes are the first bytes after the opcode, so the decoder gets them back,
and it drops exactly as many. -/
theorem decodeInvertsEncode : Obligations.DecodeInvertsEncode := by
  intro i rest
  have hlen : i.operands.length ≤ (i.operands ++ rest).length := by simp
  have hfetched := take_fetched (operands_length_le i) hlen
  rw [List.take_left] at hfetched
  refine decodeBytes_cons_ok_iff.2 ⟨decode_opcode i hfetched.symm, ?_⟩
  rw [opcodeNops_opcode]
  exact ⟨hlen, List.drop_left⟩

/-- Settles O6: the decoded instruction has the opcode and the operand bytes that were consumed. -/
theorem encodeInvertsDecode : Obligations.EncodeInvertsDecode := by
  intro bytes rest i h
  cases bytes with
  | nil => contradiction
  | cons op bytes =>
    obtain ⟨hdec, hlen, hrest⟩ := decodeBytes_cons_ok_iff.1 h
    obtain ⟨hop, hoperands⟩ := decode_ok hdec
    rw [take_fetched (decode_ok_nops_le hdec) hlen] at hoperands
    rw [encode, hop, hoperands, ← hrest, List.cons_append, List.take_append_drop]

/-- Settles O1: each written word is the encoding of its instruction, followed by the bytes left over. -/
theorem writtenWordsDecode : Obligations.WrittenWordsDecode :=
  ⟨decodeInvertsEncode .hlt [], decodeInvertsEncode (.ldi 0 8) [], decodeInvertsEncode (.prn 0) [1],
    decodeInvertsEncode (.push 7) [], decodeInvertsEncode (.mul 0 1) [],
    decodeInvertsEncode (.not 1) [], decodeInvertsEncode (.cmp 0 2) [],
    decodeInvertsEncode (.call 1) [], decodeInvertsEncode .ret [], decodeInvertsEncode (.jne 3) []⟩

end Sys2Proof

namespace Sys2Proof.Machine

/-! ### The length and the fetch (R72) -/

/-- Settles O2: the fields of a byte are arithmetic on it, and a legal opcode is an instruction's, which
has at most two operands. -/
theorem opcodeLengthFromTopBits : Obligations.OpcodeLengthFromTopBits := by
  refine ⟨fun op => ?_, fun op a b i h => ?_, fun op a b => decode_of_nops_eq_three a b,
    fun s hpc h => fetchDecode_of_decode_error hpc (decode_of_nops_eq_three _ _ h)⟩
  · rw [opcodeLength, opcodeNops_eq_div]
    exact ⟨rfl, rfl⟩
  · have hnops := decode_ok_nops_le h
    obtain ⟨rfl, -⟩ := decode_ok h
    refine ⟨?_, encode_length i⟩
    simp only [opcodeLength, List.mem_cons, List.not_mem_nil, or_false]
    omega

/-! ### Step 5 of the cycle (R104) -/

theorem autoAdvance_of_setsPc {op : Byte} (s : State) (h : opcodeSetsPc op = true) :
    autoAdvance op s = s := if_neg (by simp [h])

/-- An instruction that leaves `pc` to step 5 moves it by its length if the engine runs on, and not at
all if it halts or faults. -/
theorem exec_pc {i : Instr} {s t : State} (hset : opcodeSetsPc i.opcode = false)
    (h : exec i s = .next t) :
    t.pc = if t.run = .running then s.pc + (encode i).length else s.pc := by
  obtain ⟨s', hact, rfl⟩ | ⟨c, -, rfl⟩ := exec_next h
  · have hpc : s'.pc = s.pc := by simpa [hset] using (action_effect hact).pc_cases
    simp [autoAdvance_pc, hset, hpc, encode_length]
  · simp

/-- Settles O3: bit 4 and who has it by the opcodes' fields, the advance by what a meaning does to
`pc`. -/
theorem setsPcBitDecidesAutoAdvance : Obligations.SetsPcBitDecidesAutoAdvance :=
  ⟨opcodeSetsPc_iff, opcodeSetsPc_opcode_iff, fun _ => autoAdvance_of_setsPc,
    fun _ _ _ hset _ h => ⟨fun hrun => (exec_pc hset h).trans (if_pos hrun),
      fun hstop => (exec_pc hset h).trans (if_neg hstop)⟩⟩

end Sys2Proof.Machine

/-! SUPPORT. The cycle (40_engine_cycle): that the step is total, what it runs, how it faults and
halts, its repetition, and what HLT, LDI and PRN do and leave unchanged. -/

namespace Sys2Proof.Machine

/-! ### The step (R100 to R106) -/

/-- Settles O9: the step looks at nothing but the run state of a stopped engine. -/
theorem terminalStatesStay : Obligations.TerminalStatesStay := fun _ => step_of_not_running

/-- Settles O8: a fetch at or below 253 answers what the three bytes decode to. -/
theorem stepRunsDecodedInstruction : Obligations.StepRunsDecodedInstruction := fun _ _ hrun hpc hdec =>
  step_of_fetchDecode_ok hrun (fetchDecode_of_decode_ok hpc hdec)

/-- Settles O11: the first address outside memory that a fetch from 254, 255 or 256 comes to is 256. -/
theorem fetchBeyondTopFaults : Obligations.FetchBeyondTopFaults := by
  intro s hrun hlow hhigh
  have hfetch := fetchDecode_of_gt hlow
  rw [if_pos hhigh] at hfetch
  exact step_of_fetchDecode_error hrun hfetch

/-- Settles O12: a byte that is none of the 20 opcodes does not decode. -/
theorem illegalOpcodeFaults : Obligations.IllegalOpcodeFaults := fun s hrun hpc hbyte =>
  have hdec := (illegalOpcodesAreTheOthers (s.byteAt s.pc) _ _).2 hbyte
  step_of_fetchDecode_error hrun (fetchDecode_of_decode_error hpc hdec)

theorem step_total (s : State) : ∃ t, step s = .next t := by
  by_cases hrun : s.run = .running
  · cases hfetch : fetchDecode s with
    | ok i =>
      rw [step_of_fetchDecode_ok hrun hfetch]
      exact exec_total i s
    | error c => exact ⟨_, step_of_fetchDecode_error hrun hfetch⟩
  · exact ⟨s, step_of_not_running hrun⟩

/-- Settles O10: a cycle stays, faults or runs a meaning, and every meaning ends in `finish`. -/
theorem everyStateHasNext : Obligations.EveryStateHasNext := ⟨step_total, exec_total⟩

/-! ### The placed instruction (R101, R103, R237) -/

theorem fetchWordAddress_le (s : State) : fetchWordAddress s ≤ 253 := by
  unfold fetchWordAddress
  split <;> omega

theorem decodeTableWord_eq_some {nbits w : Nat} {i : Instr} (h : decodeTableWord nbits w = some i) :
    decode (tableByte nbits w 0) (tableByte nbits w 1) (tableByte nbits w 2) = .ok i := by
  unfold decodeTableWord at h
  split at h
  · next j hj => rw [hj, Option.some.inj h]
  · contradiction

/-- The three bytes of a table word stand where the next step fetches. -/
theorem byteAt_withFetchWord {s : State} (hwf : Memory.wf s.mem = true) (nbits w : Nat) {k : Nat}
    (hk : k < 3) :
    (s.withFetchWord nbits w).byteAt ((s.withFetchWord nbits w).pc + k) = tableByte nbits w k := by
  have hfit : fetchWordAddress s + 3 ≤ Config.MEMSIZE := Nat.add_le_add_right (fetchWordAddress_le s) 3
  refine (Memory.read_writeBlock_inside hwf hfit hk).trans ?_
  match k, hk with
  | 0, _ | 1, _ | 2, _ => rfl

/-- Settles O7: the next fetch reads back the bytes that the placing wrote, at an address it can fetch
from. -/
theorem placedWordIsRunNext : Obligations.PlacedWordIsRunNext := by
  intro s nbits w i hwf hword
  have hbyte {k : Nat} (hk : k < 3) := byteAt_withFetchWord hwf nbits w hk
  have hop := hbyte (k := 0) (by decide)
  rw [Nat.add_zero] at hop
  refine stepRunsDecodedInstruction (s.withFetchWord nbits w) i rfl (fetchWordAddress_le s) ?_
  rw [hop, hbyte (by decide), hbyte (by decide)]
  exact decodeTableWord_eq_some hword

/-! ### HALTED (R108, R110) -/

/-- What a fetch answers is what the byte at `pc` dispatches to. -/
theorem byteAt_pc_of_fetchDecode_ok {s : State} {i : Instr} (h : fetchDecode s = .ok i)
    (hpc : s.pc ≤ 253) : s.byteAt s.pc = i.opcode := by
  cases hdec : decode (s.byteAt s.pc) (s.byteAt (s.pc + 1)) (s.byteAt (s.pc + 2)) with
  | ok j =>
    rw [fetchDecode_of_decode_ok hpc hdec] at h
    cases h
    exact (decode_ok hdec).1.symm
  | error e =>
    rw [fetchDecode_of_decode_error hpc hdec] at h
    contradiction

/-- The one action that halts the engine is HLT's. -/
theorem ActionEffect.of_halted {i : Instr} {s s' : State} (h : ActionEffect s i s')
    (hrun : s.run = .running) (hhalt : s'.run = .halted) : i = .hlt ∧ s' = s.setRun .halted := by
  cases h with
  | halt => exact ⟨rfl, rfl⟩
  | _ => exact absurd (hrun.symm.trans hhalt) nofun

/-- Settles O22: HLT's action sets the run state, and step 5 adds nothing in HALTED. -/
theorem hltHalts : Obligations.HltHalts := fun s _ => by
  rw [exec_eq_finish]
  rfl

/-- Settles O15: of the ways a step can go only a completed action can end HALTED, and only HLT's. -/
theorem haltedOnlyByHlt : Obligations.HaltedOnlyByHlt := by
  intro s t hrun hstep hhalt
  obtain ⟨hstop, -⟩ | ⟨c, rfl⟩ | ⟨-, hpc, i, s', hfetch, heff, rfl⟩ := step_cases hstep
  · exact absurd hrun hstop
  · contradiction
  · rw [autoAdvance_run] at hhalt
    obtain ⟨rfl, rfl⟩ := heff.of_halted hrun hhalt
    exact ⟨byteAt_pc_of_fetchDecode_ok hfetch hpc, rfl⟩

/-! ### The repeated step (R107) -/

theorem runFor_of_not_running (k : Nat) {s : State} (h : s.run ≠ .running) : runFor k s = .next s := by
  cases k with
  | zero => rfl
  | succ k =>
    rw [runFor]
    cases hrun : s.run with
    | running => exact absurd hrun h
    | halted | faulted => rfl

theorem runFor_succ (k : Nat) {s t : State} (h : step s = .next t) : runFor (k + 1) s = runFor k t := by
  by_cases hrun : s.run = .running
  · rw [runFor, hrun, h]
  · rw [step_of_not_running hrun] at h
    cases h
    rw [runFor_of_not_running _ hrun, runFor_of_not_running _ hrun]

theorem runFor_add {j : Nat} (k : Nat) {s t : State} (h : runFor j s = .next t) :
    runFor (j + k) s = runFor k t := by
  induction j generalizing s with
  | zero =>
    cases h
    rw [Nat.zero_add]
  | succ j ih =>
    obtain ⟨u, hu⟩ := step_total s
    rw [runFor_succ j hu] at h
    rw [Nat.add_right_comm, runFor_succ _ hu, ih h]

/-- Settles O16: one cycle more is a step, and runs compose by induction on the first. -/
theorem runIsRepeatedStep : Obligations.RunIsRepeatedStep :=
  ⟨fun _ => rfl, fun k _ _ => runFor_succ k, fun _ k _ _ => runFor_add k,
    fun k _ => runFor_of_not_running k⟩

/-! ### HLT, LDI and PRN (R110 to R112) -/

theorem autoAdvance_of_running {op : Byte} {s : State} (hset : opcodeSetsPc op = false)
    (hrun : s.run = .running) : autoAdvance op s = s.setPc (s.pc + opcodeLength op) :=
  if_pos ⟨hrun, hset⟩

/-- An action that runs on is followed by step 5 (R104). -/
theorem exec_of_action_ok {i : Instr} {s s' : State} {n : Nat} (h : action i s = .ok s')
    (hrun : s'.run = .running) (hset : opcodeSetsPc i.opcode = false)
    (hlen : opcodeLength i.opcode = n) : exec i s = .next (s'.setPc (s'.pc + n)) := by
  rw [exec_eq_finish, h, finish_ok, autoAdvance_of_running hset hrun, hlen]

/-- An action's fault is taken from the start of the cycle (R105). -/
theorem exec_of_action_error {i : Instr} {s : State} {c : Cause} (h : action i s = .error c) :
    exec i s = .next (s.faultedWith c) := by
  rw [exec_eq_finish, h]
  rfl

theorem ldiAction_of_lt (s : State) {a : Byte} (ha : a.toNat < 8) (imm : Byte) :
    action (.ldi a imm) s = .ok (s.setRegs (s.regs.set a.toNat imm)) := writeReg_of_lt s ha imm

theorem ldiAction_of_ge (s : State) {a : Byte} (ha : 8 ≤ a.toNat) (imm : Byte) :
    action (.ldi a imm) s = .error (.outOfRangeRegister a) := writeReg_of_ge s ha imm

theorem prnAction_of_ge (s : State) {a : Byte} (ha : 8 ≤ a.toNat) :
    action (.prn a) s = .error (.outOfRangeRegister a) := by
  rw [action, readReg_of_ge s ha]
  rfl

/-- Settles O23: LDI's action is one register write. -/
theorem ldiLoadsImmediate : Obligations.LdiLoadsImmediate := fun _ imm s hrun =>
  ⟨rfl, fun ha => exec_of_action_ok (ldiAction_of_lt s ha imm) hrun opcodeSetsPc_ldi opcodeLength_ldi,
    fun ha => exec_of_action_error (ldiAction_of_ge s ha imm)⟩

/-- Settles O24: PRN's action is one register read and one event. -/
theorem prnEmitsRegister : Obligations.PrnEmitsRegister := fun _ s hrun =>
  ⟨rfl, fun ha => exec_of_action_ok (prnAction_of_lt s ha) hrun opcodeSetsPc_prn opcodeLength_prn,
    fun ha => exec_of_action_error (prnAction_of_ge s ha)⟩

/-- Settles O45: each completed action changes one part of the state, and a fault only `run` and
`cause`. -/
theorem hltLdiPrnFrame : Obligations.HltLdiPrnFrame := by
  intro a imm s t i hmem h
  simp only [List.mem_cons, List.not_mem_nil, or_false] at hmem
  obtain ⟨s', hact, rfl⟩ | ⟨c, -, rfl⟩ := exec_next h
  · obtain ⟨p, hadv⟩ := autoAdvance_eq i.opcode s'
    rw [hadv]
    obtain rfl | rfl | rfl := hmem
    · cases hact
      exact ⟨fun _ => .inr rfl, rfl, rfl, fun _ => rfl, fun _ => rfl, List.prefix_rfl, rfl,
        .inr ⟨rfl, rfl, rfl⟩⟩
    · obtain ⟨ha, rfl⟩ := writeReg_ok hact
      refine ⟨fun r => ?_, rfl, rfl, fun _ => rfl, fun _ => rfl, List.prefix_rfl, rfl,
        .inl (.inl ⟨rfl, rfl⟩)⟩
      by_cases hr : r.val = a.toNat
      · exact .inl ⟨rfl, hr⟩
      · exact .inr (regs_set_other s.regs ha _ r hr)
    · obtain ⟨ha, rfl⟩ := prnAction_ok hact
      exact ⟨fun _ => .inr rfl, rfl, rfl, fun _ => rfl, fun hprn => absurd rfl hprn,
        List.prefix_append _ _, rfl, .inl (.inl ⟨rfl, rfl⟩)⟩
  · exact ⟨fun _ => .inr rfl, rfl, rfl, fun _ => rfl, fun _ => rfl, List.prefix_rfl, rfl,
      .inl (.inr ⟨c, rfl, rfl⟩)⟩

end Sys2Proof.Machine

/-! SUPPORT. The ALU (41_alu): the functions of the bytes as arithmetic and bits, and what the ALU
instructions, CMP and the jumps after it do and leave unchanged. -/

namespace Sys2Proof.Machine

/-! ### The functions of the bytes (R131 to R140) -/

@[simp] theorem trunc8_toNat (n : Nat) : (trunc8 n).toNat = n % 256 := BitVec.toNat_ofNat n 8

/-- The model's multiplication by a power of two, narrowed, is the shift of bit vectors. -/
theorem aluShl_eq (va vb : Byte) : aluShl va vb = va <<< vb.toNat :=
  BitVec.eq_of_toNat_eq <| by
    rw [aluShl, trunc8_toNat, BitVec.toNat_shiftLeft, Nat.shiftLeft_eq]

/-- The model's division by a power of two is the logical shift of bit vectors. -/
theorem aluShr_eq (va vb : Byte) : aluShr va vb = va >>> vb.toNat := by
  have hfit : va.toNat / 2 ^ vb.toNat < 256 := (Nat.div_le_self _ _).trans_lt va.isLt
  apply BitVec.eq_of_toNat_eq
  rw [aluShr, trunc8_toNat, BitVec.toNat_ushiftRight, Nat.shiftRight_eq_div_pow,
    Nat.mod_eq_of_lt hfit]

theorem aluQuotient_toNat (va vb : Byte) : (aluQuotient va vb).toNat = va.toNat / vb.toNat := by
  have hfit : va.toNat / vb.toNat < 256 := (Nat.div_le_self _ _).trans_lt va.isLt
  rw [aluQuotient, trunc8_toNat, Nat.mod_eq_of_lt hfit]

/-! ### The two-register ALU instructions (R130 to R138) -/

/-- An instruction whose action is the shared one leaves `f` of its two registers in the first. -/
theorem exec_of_aluAction {f : Byte → Byte → Byte} {i : Instr} {a b : Byte} {s : State}
    (hact : action i s = aluAction f a b s) (hset : opcodeSetsPc i.opcode = false)
    (hlen : opcodeLength i.opcode = 3) (ha : a.toNat < 8) (hb : b.toNat < 8)
    (hrun : s.run = .running) : exec i s =
      .next { s with regs := s.regs.set a.toNat (f s.regs[a.toNat] s.regs[b.toNat]),
                     pc := s.pc + 3 } :=
  exec_of_action_ok (hact.trans (aluAction_of_lt f s ha hb)) hrun hset hlen

/-- Settles O25: the sum is narrowed modulo 256. -/
theorem addWrapsModulo256 : Obligations.AddWrapsModulo256 := fun _ _ _ ha hb hrun =>
  ⟨_, trunc8_toNat _,
    exec_of_aluAction (i := .add _ _) rfl opcodeSetsPc_add opcodeLength_add ha hb hrun⟩

/-- Settles O26: the product is narrowed modulo 256. -/
theorem mulWrapsModulo256 : Obligations.MulWrapsModulo256 := fun _ _ _ ha hb hrun =>
  ⟨_, trunc8_toNat _,
    exec_of_aluAction (i := .mul _ _) rfl opcodeSetsPc_mul opcodeLength_mul ha hb hrun⟩

/-- Settles O27: the bits of the library's bitwise operations. -/
theorem bitwiseInstructionsWorkPerBit : Obligations.BitwiseInstructionsWorkPerBit :=
  fun _ _ _ ha hb hrun =>
    ⟨⟨_, fun _ => BitVec.getLsbD_and,
        exec_of_aluAction (i := .and _ _) rfl opcodeSetsPc_and opcodeLength_and ha hb hrun⟩,
      ⟨_, fun _ => BitVec.getLsbD_or,
        exec_of_aluAction (i := .or _ _) rfl opcodeSetsPc_or opcodeLength_or ha hb hrun⟩,
      ⟨_, fun _ => BitVec.getLsbD_xor,
        exec_of_aluAction (i := .xor _ _) rfl opcodeSetsPc_xor opcodeLength_xor ha hb hrun⟩⟩

/-- Settles O28: the result is the left shift of bit vectors by the whole count. -/
theorem shlShiftsByWholeCount : Obligations.ShlShiftsByWholeCount := by
  intro a b s ha hb hrun
  refine ⟨aluShl s.regs[a.toNat] s.regs[b.toNat], fun k => ?_, fun hcount => ?_,
    exec_of_aluAction (i := .shl _ _) rfl opcodeSetsPc_shl opcodeLength_shl ha hb hrun⟩
  · simp only [aluShl_eq, BitVec.getLsbD_shiftLeft, ← decide_not, Nat.not_lt]
  · exact (aluShl_eq _ _).trans (BitVec.shiftLeft_eq_zero hcount)

/-- Settles O29: the result is the logical right shift of bit vectors by the whole count. -/
theorem shrShiftsByWholeCount : Obligations.ShrShiftsByWholeCount := by
  intro a b s ha hb hrun
  refine ⟨aluShr s.regs[a.toNat] s.regs[b.toNat], fun k => ?_, fun hcount => ?_,
    exec_of_aluAction (i := .shr _ _) rfl opcodeSetsPc_shr opcodeLength_shr ha hb hrun⟩
  · rw [aluShr_eq, BitVec.getLsbD_ushiftRight, Nat.add_comm]
  · exact (aluShr_eq _ _).trans (BitVec.ushiftRight_eq_zero hcount)

/-! ### MOD and NOT (R139, R140) -/

/-- Settles O30: the quotient is that of the natural numbers, and a divisor of 0 is an event. -/
theorem modStoresQuotient : Obligations.ModStoresQuotient := by
  intro a b s ha hb hrun
  constructor
  · intro hz
    have hpos : 0 < s.regs[b.toNat].toNat :=
      Nat.pos_of_ne_zero fun h => hz (BitVec.eq_of_toNat_eq h)
    refine ⟨aluQuotient s.regs[a.toNat] s.regs[b.toNat], ?_, ?_,
      exec_of_action_ok (i := .mod a b) (modAction_of_ne s ha hb hz) hrun opcodeSetsPc_mod
        opcodeLength_mod⟩
    · rw [aluQuotient_toNat]
      exact Nat.div_mul_le_self _ _
    · rw [aluQuotient_toNat, ← Nat.div_lt_iff_lt_mul hpos]
      exact Nat.lt_succ_self _
  · exact fun hz =>
      exec_of_action_ok (i := .mod a b) (modAction_of_zero s ha hb hz) hrun opcodeSetsPc_mod
        opcodeLength_mod

/-- Settles O31: the bitwise complement of a byte is 255 minus it. -/
theorem notComplements : Obligations.NotComplements := fun _ s ha hrun =>
  ⟨_, BitVec.toNat_not,
    exec_of_action_ok (i := .not _) (notAction_of_lt s ha) hrun opcodeSetsPc_not opcodeLength_not⟩

/-- Settles O49: none of the nine is CMP or a jump on the flag. -/
theorem aluIgnoresFlag : Obligations.AluIgnoresFlag := by
  intro a b s i hmem
  have hcmp : ∀ a b, i ≠ .cmp a b := by
    rintro a b rfl
    simp at hmem
  have hjump : ¬∃ a, i = .jeq a ∨ i = .jne a := by
    rintro ⟨a, rfl | rfl⟩ <;> simp at hmem
  obtain ⟨t, ht⟩ := exec_total i s
  exact ⟨t, ht, exec_fl hcmp ht, fun f => exec_setFl hcmp (fun h => absurd h hjump) ht⟩

/-! ### A second register operand out of range (R130, R208) -/

/-- Two register reads of which the second is out of range fault, whatever would follow them. -/
theorem twoReads_of_second_ge (s : State) {a b : Byte} (ha : a.toNat < 8) (hb : 8 ≤ b.toNat)
    (f : Byte → Byte → Except Cause State) :
    (readReg s a >>= fun va => readReg s b >>= f va) = .error (.outOfRangeRegister b) := by
  rw [readReg_of_lt s ha, readReg_of_ge s hb]
  rfl

/-- Settles O40: all nine actions begin with the two reads. -/
theorem secondRegisterIndexFaults : Obligations.SecondRegisterIndexFaults := by
  intro a b s ha hb i hmem
  simp only [List.mem_cons, List.not_mem_nil, or_false] at hmem
  refine exec_of_action_error ?_
  obtain rfl | rfl | rfl | rfl | rfl | rfl | rfl | rfl | rfl := hmem <;>
    exact twoReads_of_second_ge s ha hb _

/-! ### CMP (R142) -/

/-- The model's sign extension is the library's reading of a bit vector in two's complement. -/
theorem sext8_eq_toInt (v : Byte) : sext8 v = v.toInt := by
  rw [sext8, BitVec.toInt_eq_toNat_cond]
  split <;> split <;> omega

/-- The three values that CMP can give the flag, each with the order of the bytes it stands for. -/
theorem compareFlag_cases (va vb : Byte) :
    (va.toInt = vb.toInt ∧ compareFlag va vb = .equal) ∨
    (vb.toInt < va.toInt ∧ compareFlag va vb = .greater) ∨
    (va.toInt < vb.toInt ∧ compareFlag va vb = .less) := by
  have hgreater : isGreater Config.CMP_SIGNED va vb = decide (vb.toInt < va.toInt) := by
    rw [← sext8_eq_toInt, ← sext8_eq_toInt]
    rfl
  rw [compareFlag, hgreater]
  obtain hlt | heq | hgt := lt_trichotomy va.toInt vb.toInt
  · have hne : va ≠ vb := fun h => hlt.ne (congrArg _ h)
    simp [hne, hlt, hlt.le]
  · simp [BitVec.toInt_inj.1 heq]
  · have hne : va ≠ vb := fun h => hgt.ne' (congrArg _ h)
    simp [hne, hgt]

theorem compareFlag_eq_equal_iff (va vb : Byte) : compareFlag va vb = .equal ↔ va = vb := by
  rw [← BitVec.toInt_inj]
  obtain ⟨h, hf⟩ | ⟨h, hf⟩ | ⟨h, hf⟩ := compareFlag_cases va vb <;> simp [hf] <;> omega

theorem compareFlag_eq_greater_iff (va vb : Byte) :
    compareFlag va vb = .greater ↔ vb.toInt < va.toInt := by
  obtain ⟨h, hf⟩ | ⟨h, hf⟩ | ⟨h, hf⟩ := compareFlag_cases va vb <;> simp [hf] <;> omega

theorem compareFlag_eq_less_iff (va vb : Byte) :
    compareFlag va vb = .less ↔ va.toInt < vb.toInt := by
  obtain ⟨h, hf⟩ | ⟨h, hf⟩ | ⟨h, hf⟩ := compareFlag_cases va vb <;> simp [hf] <;> omega

theorem compareFlag_ne_unset (va vb : Byte) : compareFlag va vb ≠ .unset := by
  obtain ⟨-, hf⟩ | ⟨-, hf⟩ | ⟨-, hf⟩ := compareFlag_cases va vb <;> simp [hf]

theorem exec_cmp_of_lt {a b : Byte} {s : State} (ha : a.toNat < 8) (hb : b.toNat < 8)
    (hrun : s.run = .running) : exec (.cmp a b) s =
      .next { s with fl := compareFlag s.regs[a.toNat] s.regs[b.toNat], pc := s.pc + 3 } :=
  exec_of_action_ok (i := .cmp a b) (cmpAction_of_lt s ha hb) hrun opcodeSetsPc_cmp opcodeLength_cmp

/-- Settles O32: the order that the flag stands for is that of the integers the bytes denote. -/
theorem cmpOrdersSigned : Obligations.CmpOrdersSigned := fun _ _ _ ha hb hrun =>
  ⟨_, exec_cmp_of_lt ha hb hrun, compareFlag_ne_unset _ _, compareFlag_eq_equal_iff _ _,
    compareFlag_eq_greater_iff _ _, compareFlag_eq_less_iff _ _⟩

/-- Settles O44: a completed action sets only the flag or only `pc`; a fault changes only `run` and
`cause`. -/
theorem compareAndJumpFrame : Obligations.CompareAndJumpFrame := by
  intro a b s t i hmem h
  simp only [List.mem_cons, List.not_mem_nil, or_false] at hmem
  obtain ⟨s', hact, rfl⟩ | ⟨c, -, rfl⟩ := exec_next h
  · obtain ⟨p, hadv⟩ := autoAdvance_eq i.opcode s'
    rw [hadv]
    obtain rfl | hjump := hmem
    · obtain ⟨-, -, rfl⟩ := cmpAction_ok hact
      exact ⟨rfl, rfl, fun hne => absurd rfl hne, fun _ => rfl, rfl, rfl, .inl ⟨rfl, rfl⟩⟩
    · obtain ⟨q, rfl⟩ : ∃ q, s' = s.setPc q := by
        obtain rfl | rfl | rfl := hjump <;>
          obtain ⟨-, _, hs'⟩ | ⟨-, hs'⟩ := jumpAction_ok hact <;> exact ⟨_, hs'⟩
      exact ⟨rfl, rfl, fun _ => rfl, fun _ => rfl, rfl, rfl, .inl ⟨rfl, rfl⟩⟩
  · exact ⟨rfl, rfl, fun _ => rfl, fun _ => rfl, rfl, rfl, .inr ⟨c, rfl, rfl⟩⟩

/-! ### The conditional jumps on both paths, and after a CMP (R143, R182, R183) -/

/-- An instruction that writes `pc` itself ends with its action (R104). -/
theorem exec_of_setsPc {i : Instr} {s s' : State} (h : action i s = .ok s')
    (hset : opcodeSetsPc i.opcode = true) : exec i s = .next s' := by
  rw [exec_eq_finish, h, finish_ok, autoAdvance_of_setsPc s' hset]

theorem flagIsEqual_of_eq {f : Flag} (h : f = .equal) : flagIsEqual f = true := decide_eq_true h

theorem flagIsEqual_of_ne {f : Flag} (h : f ≠ .equal) : flagIsEqual f = false := decide_eq_false h

theorem exec_jeq_of_equal {a : Byte} {s : State} (ha : a.toNat < 8) (h : s.fl = .equal) :
    exec (.jeq a) s = .next { s with pc := s.regs[a.toNat].toNat } := by
  refine exec_of_setsPc ?_ opcodeSetsPc_jeq
  rw [action, flagIsEqual_of_eq h]
  exact jumpAction_taken s ha

theorem exec_jeq_of_ne (a : Byte) {s : State} (h : s.fl ≠ .equal) :
    exec (.jeq a) s = .next { s with pc := s.pc + 2 } := by
  refine exec_of_setsPc ?_ opcodeSetsPc_jeq
  rw [action, flagIsEqual_of_ne h]
  exact jumpAction_not_taken s a

theorem exec_jne_of_equal (a : Byte) {s : State} (h : s.fl = .equal) :
    exec (.jne a) s = .next { s with pc := s.pc + 2 } := by
  refine exec_of_setsPc ?_ opcodeSetsPc_jne
  rw [action, flagIsEqual_of_eq h]
  exact jumpAction_not_taken s a

theorem exec_jne_of_ne {a : Byte} {s : State} (ha : a.toNat < 8) (h : s.fl ≠ .equal) :
    exec (.jne a) s = .next { s with pc := s.regs[a.toNat].toNat } := by
  refine exec_of_setsPc ?_ opcodeSetsPc_jne
  rw [action, flagIsEqual_of_ne h]
  exact jumpAction_taken s ha

/-- Settles O59: the flag that the jumps test is EQUAL exactly if the compared bytes were equal. -/
theorem jumpsFollowEarlierCompare : Obligations.JumpsFollowEarlierCompare := by
  intro a b j s t u ha hb hj hrun hcmp hfl _
  rw [exec_cmp_of_lt ha hb hrun] at hcmp
  cases hcmp
  have htest : u.fl = .equal ↔ s.regs[a.toNat] = s.regs[b.toNat] := by
    rw [hfl]
    exact compareFlag_eq_equal_iff _ _
  by_cases heq : s.regs[a.toNat] = s.regs[b.toNat]
  · rw [if_pos heq, if_pos heq]
    exact ⟨exec_jeq_of_equal hj (htest.2 heq), exec_jne_of_equal j (htest.2 heq)⟩
  · rw [if_neg heq, if_neg heq]
    exact ⟨exec_jeq_of_ne j (mt htest.1 heq), exec_jne_of_ne hj (mt htest.1 heq)⟩

end Sys2Proof.Machine

/-! SUPPORT. The stack (42_stack): what PUSH, POP, CALL and RET do, how they fault, what they leave
unchanged, and that a pop takes back what the push before it stored. -/

namespace Sys2Proof.Machine

/-! ### The pushed byte, and the four meanings where nothing is out of range -/

/-- The return address of a CALL that the fetch has let through is not narrowed (R163). -/
theorem returnAddress_toNat {s : State} (hpc : s.pc ≤ 253) :
    (returnAddress s).toNat = s.pc + 2 := by
  rw [returnAddress, trunc8_toNat]
  omega

/-- A byte pushed on a stack that has room reads back from the cell below the stack pointer. -/
theorem read_write_pushAddress_same {s : State} (hs : s.sp ≠ 0) (hwf : Memory.wf s.mem = true)
    (v : Byte) : Memory.read (Memory.write s.mem (pushAddress s) v) (s.sp.toNat - 1) = v := by
  rw [← pushAddress_of_ne hs, Memory.read_write_same hwf]

theorem read_write_pushAddress_other {s : State} (hs : s.sp ≠ 0) (v : Byte) {addr : Nat}
    (h : addr ≠ s.sp.toNat - 1) :
    Memory.read (Memory.write s.mem (pushAddress s) v) addr = s.byteAt addr :=
  Memory.read_write_other (pushAddress_of_ne hs ▸ h) _ _

theorem exec_push_of_ne {a : Byte} {s : State} (ha : a.toNat < 8) (hs : s.sp ≠ 0)
    (hrun : s.run = .running) : exec (.push a) s = .next { s with
      sp := s.sp - 1, mem := Memory.write s.mem (pushAddress s) s.regs[a.toNat], pc := s.pc + 2 } :=
  exec_of_action_ok (i := .push a) (pushAction_of_ne s ha hs) hrun opcodeSetsPc_push opcodeLength_push

theorem exec_pop_of_ne {a : Byte} {s : State} (ha : a.toNat < 8) (hs : s.sp ≠ 255)
    (hrun : s.run = .running) : exec (.pop a) s = .next { s with
      regs := s.regs.set a.toNat (s.byteAt s.sp.toNat), sp := s.sp + 1, pc := s.pc + 2 } :=
  exec_of_action_ok (i := .pop a) (popAction_of_ne s ha hs) hrun opcodeSetsPc_pop opcodeLength_pop

theorem exec_call_of_ne {a : Byte} {s : State} (ha : a.toNat < 8) (hs : s.sp ≠ 0) :
    exec (.call a) s = .next { s with
      sp := s.sp - 1, mem := Memory.write s.mem (pushAddress s) (returnAddress s),
      pc := s.regs[a.toNat].toNat } :=
  exec_of_setsPc (i := .call a) (callAction_of_ne s ha hs) opcodeSetsPc_call

theorem exec_ret_of_ne {s : State} (hs : s.sp ≠ 255) :
    exec .ret s = .next { s with sp := s.sp + 1, pc := (s.byteAt s.sp.toNat).toNat } :=
  exec_of_setsPc (i := .ret) (retAction_of_ne hs) opcodeSetsPc_ret

/-! ### How they fault (R160) -/

theorem pushAction_of_ge (s : State) {a : Byte} (ha : 8 ≤ a.toNat) :
    pushAction a s = .error (.outOfRangeRegister a) := by
  rw [pushAction, readReg_of_ge s ha]
  rfl

theorem pushAction_of_zero {s : State} {a : Byte} (ha : a.toNat < 8) (hs : s.sp = 0) :
    pushAction a s = .error (.outOfRangeStack (-1)) := by
  rw [pushAction, readReg_of_lt s ha]
  exact pushByte_zero hs _

theorem popAction_of_top {s : State} {a : Byte} (ha : a.toNat < 8) (hs : s.sp = 255) :
    popAction a s = .error (.outOfRangeStack 256) := by
  rw [popAction, checkReg_of_lt ha, popByte_top hs]
  rfl

theorem callAction_of_zero {s : State} {a : Byte} (ha : a.toNat < 8) (hs : s.sp = 0) :
    callAction a s = .error (.outOfRangeStack (-1)) := by
  rw [callAction, readReg_of_lt s ha, pushByte_zero hs]
  rfl

theorem retAction_of_top {s : State} (hs : s.sp = 255) :
    retAction s = .error (.outOfRangeStack 256) := by
  rw [retAction, popByte_top hs]
  rfl

/-- Settles O41: the range check of the push or pop comes before anything moves. -/
theorem stackPointerRangeFaults : Obligations.StackPointerRangeFaults := fun a _ ha =>
  ⟨fun hs => ⟨exec_of_action_error (i := .push a) (pushAction_of_zero ha hs),
      exec_of_action_error (i := .call a) (callAction_of_zero ha hs)⟩,
    fun hs => ⟨exec_of_action_error (i := .pop a) (popAction_of_top ha hs),
      exec_of_action_error (i := .ret) (retAction_of_top hs)⟩⟩

/-! ### PUSH, POP, CALL and RET (R161 to R164) -/

/-- Settles O33: PUSH's action is one register read and one write below the stack pointer. -/
theorem pushStoresBelowStackPointer : Obligations.PushStoresBelowStackPointer := fun a s hrun =>
  ⟨rfl, fun ha hs => ⟨_, exec_push_of_ne ha hs hrun, rfl, pushAddress_of_ne hs,
      fun hwf => read_write_pushAddress_same hs hwf _, fun _ => read_write_pushAddress_other hs _⟩,
    fun ha => exec_of_action_error (i := .push a) (pushAction_of_ge s ha),
    fun ha hs => exec_of_action_error (i := .push a) (pushAction_of_zero ha hs)⟩

/-- Settles O34: POP's action is one memory read at the stack pointer and one register write. -/
theorem popLoadsFromStackPointer : Obligations.PopLoadsFromStackPointer := fun _ _ ha hrun hs =>
  ⟨_, toNat_add_one hs, exec_pop_of_ne ha hs hrun⟩

/-- Settles O35: CALL's push is PUSH's, of the return address, which fits a byte. -/
theorem callPushesReturnAddress : Obligations.CallPushesReturnAddress := fun _ _ ha _ hs hpc =>
  ⟨_, exec_call_of_ne ha hs, rfl, pushAddress_of_ne hs,
    fun hwf => (congrArg _ (read_write_pushAddress_same hs hwf _)).trans (returnAddress_toNat hpc),
    fun _ => read_write_pushAddress_other hs _⟩

/-- Settles O36: RET's action is one memory read at the stack pointer, into `pc`. -/
theorem retPopsProgramCounter : Obligations.RetPopsProgramCounter := fun _ _ hs =>
  ⟨_, toNat_add_one hs, exec_ret_of_ne hs⟩

/-! ### What they leave unchanged -/

/-- Settles O46: a completed PUSH or CALL moves the stack pointer to the one cell it writes; a fault
changes only `run` and `cause`. -/
theorem pushAndCallFrame : Obligations.PushAndCallFrame := by
  intro a s t i hmem h
  simp only [List.mem_cons, List.not_mem_nil, or_false] at hmem
  obtain ⟨s', hact, rfl⟩ | ⟨c, -, rfl⟩ := exec_next h
  · obtain ⟨p, hadv⟩ := autoAdvance_eq i.opcode s'
    rw [hadv]
    obtain ⟨v, q, rfl⟩ : ∃ v q,
        s' = ((s.setSp (s.sp - 1)).setMem (Memory.write s.mem (pushAddress s) v)).setPc q := by
      obtain rfl | rfl := hmem
      · obtain ⟨_, -, hs'⟩ := pushAction_ok hact
        exact ⟨_, s.pc, hs'⟩
      · obtain ⟨_, -, hs'⟩ := callAction_ok hact
        exact ⟨_, _, hs'⟩
    exact ⟨rfl, rfl, fun _ hne => Memory.read_write_other hne _ _, .inr rfl, rfl, rfl,
      .inl ⟨rfl, rfl⟩⟩
  · exact ⟨rfl, rfl, fun _ _ => rfl, .inl rfl, rfl, rfl, .inr ⟨c, rfl, rfl⟩⟩

/-- Settles O47: a completed POP or RET moves the stack pointer up, and POP writes one register; a
fault changes only `run` and `cause`. -/
theorem popAndRetFrame : Obligations.PopAndRetFrame := by
  intro a s t i hmem h
  simp only [List.mem_cons, List.not_mem_nil, or_false] at hmem
  obtain ⟨s', hact, rfl⟩ | ⟨c, -, rfl⟩ := exec_next h
  · obtain ⟨p, hadv⟩ := autoAdvance_eq i.opcode s'
    rw [hadv]
    obtain rfl | rfl := hmem
    · obtain ⟨ha, -, rfl⟩ := popAction_ok hact
      refine ⟨fun r => ?_, rfl, fun _ => rfl, rfl, rfl, .inr rfl, .inl ⟨rfl, rfl⟩⟩
      by_cases hr : r.val = a.toNat
      · exact .inl ⟨rfl, hr⟩
      · exact .inr (regs_set_other s.regs ha _ r hr)
    · obtain ⟨-, rfl⟩ := retAction_ok hact
      exact ⟨fun _ => .inr rfl, rfl, fun _ => rfl, rfl, rfl, .inr rfl, .inl ⟨rfl, rfl⟩⟩
  · exact ⟨fun _ => .inr rfl, rfl, fun _ => rfl, rfl, rfl, .inl rfl, .inr ⟨c, rfl, rfl⟩⟩

/-! ### A push and the pop after it (R165, R166) -/

/-- After a push the stack pointer is not at the top, so a pop does not fault. -/
theorem sub_one_ne_top {v : Byte} (h : v ≠ 0) : v - 1 ≠ 255 := by bv_omega

/-- Settles O57: POP reads the cell that PUSH wrote, and its increment undoes the decrement. -/
theorem pushPopCopies : Obligations.PushPopCopies := by
  rintro a b s ha hb ⟨hwf, -, -⟩ hrun hs
  refine ⟨_, _, exec_push_of_ne ha hs hrun, exec_pop_of_ne hb (sub_one_ne_top hs) hrun, ?_⟩
  have hregs : s.regs.set b.toNat
      (Memory.read (Memory.write s.mem (pushAddress s) s.regs[a.toNat]) (pushAddress s)) =
      s.regs.set b.toNat s.regs[a.toNat] := by
    rw [Memory.read_write_same hwf]
  refine ⟨hregs, ?_, BitVec.sub_add_cancel _ _, rfl⟩
  rintro rfl
  exact hregs.trans (Vector.set_getElem_self ha)

/-- Settles O58: RET takes back the return address and the stack pointer from where CALL put them. -/
theorem callRetResumes : Obligations.CallRetResumes := by
  rintro a s t u ha ⟨hwf, -, -⟩ - hs hpc hcall - hsp hbyte
  rw [exec_call_of_ne ha hs] at hcall
  cases hcall
  have htop : u.sp ≠ 255 := hsp ▸ sub_one_ne_top hs
  have hret : u.byteAt u.sp.toNat = returnAddress s := hbyte.trans (Memory.read_write_same hwf _)
  rw [exec_ret_of_ne htop, hret, returnAddress_toNat hpc, hsp, BitVec.sub_add_cancel]

end Sys2Proof.Machine

/-! SUPPORT. The jumps (43_jumps): where JMP, JEQ and JNE leave `pc`. -/

namespace Sys2Proof.Machine

/-- Settles O38: each of the two jumps has one meaning where it is taken, for a register that exists,
and one where it is not, for any operand byte. -/
theorem conditionalJumpsTestEqual : Obligations.ConditionalJumpsTestEqual := fun a _ _ =>
  ⟨fun ha => ⟨exec_jeq_of_equal ha, exec_jne_of_ne ha⟩, exec_jeq_of_ne a, exec_jne_of_equal a⟩

/-- Settles O37: JMP's action is the shared jump, always taken, and it writes `pc` itself. -/
theorem jmpGoesToRegister : Obligations.JmpGoesToRegister := fun a s ha _ =>
  exec_of_setsPc (i := .jmp a) (jumpAction_taken s ha) opcodeSetsPc_jmp

end Sys2Proof.Machine

/-! SUPPORT. The faults (60_exceptions): that a fault changes nothing but `run` and `cause`, what every
recorded cause says of the cycle that recorded it, and the fault of a first register operand. -/

namespace Sys2Proof.Machine

/-! ### Faults are precise (R105, R209) -/

/-- A meaning that ends FAULTED has taken its action's fault. -/
theorem exec_faulted {i : Instr} {s t : State} (hrun : s.run = .running) (h : exec i s = .next t)
    (hfault : t.run = .faulted) : ∃ c, action i s = .error c ∧ t = raise c s := by
  obtain ⟨s', hact, rfl⟩ | hraise := exec_next h
  · rw [autoAdvance_run] at hfault
    obtain ⟨hsame | hhalt, -⟩ := (action_effect hact).run_cause
    · rw [hsame, hrun] at hfault
      contradiction
    · rw [hhalt] at hfault
      contradiction
  · exact hraise

/-- Settles O13: a running engine enters FAULTED in the fetch or in the action, and either takes the
fault from the state at the start of the cycle. -/
theorem faultsArePrecise : Obligations.FaultsArePrecise := by
  intro s t hrun hstep hfault
  obtain ⟨hstop, -⟩ | ⟨-, c, -, ht⟩ | ⟨-, -, i, -, hexec⟩ := step_next hstep
  · exact absurd hrun hstop
  · exact ⟨c, ht⟩
  · obtain ⟨c, -, ht⟩ := exec_faulted hrun hexec hfault
    exact ⟨c, ht⟩

/-! ### A first register operand out of range (R202, R208) -/

theorem bind_of_error {α β : Type} {x : Except Cause α} {c : Cause} (h : x = .error c)
    (f : α → Except Cause β) : (x >>= f) = .error c := by
  rw [h]
  rfl

theorem jumpAction_taken_of_ge (s : State) {a : Byte} (ha : 8 ≤ a.toNat) :
    jumpAction true a s = .error (.outOfRangeRegister a) := bind_of_error (readReg_of_ge s ha) _

/-- Every action that uses a register checks the first one before anything else. -/
theorem action_of_first_register_ge {i : Instr} {s : State} {a : Byte} {l : List Byte}
    (hused : registersUsed s.fl i = a :: l) (ha : 8 ≤ a.toNat) :
    action i s = .error (.outOfRangeRegister a) := by
  cases i with
  | hlt | ret => cases hused
  | ldi a' imm => cases hused; exact ldiAction_of_ge s ha imm
  | pop a' => cases hused; exact bind_of_error (checkReg_of_ge ha) _
  | jmp a' => cases hused; exact jumpAction_taken_of_ge s ha
  | jeq a' =>
    by_cases hfl : s.fl = .equal
    · rw [registersUsed, if_pos hfl] at hused
      cases hused
      rw [action, flagIsEqual_of_eq hfl]
      exact jumpAction_taken_of_ge s ha
    · rw [registersUsed, if_neg hfl] at hused
      contradiction
  | jne a' =>
    by_cases hfl : s.fl = .equal
    · rw [registersUsed, if_pos hfl] at hused
      contradiction
    · rw [registersUsed, if_neg hfl] at hused
      cases hused
      rw [action, flagIsEqual_of_ne hfl]
      exact jumpAction_taken_of_ge s ha
  | _ => cases hused; exact bind_of_error (readReg_of_ge s ha) _

/-- Settles O39: each instruction of the list uses `a` first, and JEQ and JNE do when they jump. -/
theorem firstRegisterIndexFaults : Obligations.FirstRegisterIndexFaults := by
  intro a b s ha
  have hfault {i : Instr} {l : List Byte} (hused : registersUsed s.fl i = a :: l) :
      exec i s = .next (s.faultedWith (.outOfRangeRegister a)) :=
    exec_of_action_error (action_of_first_register_ge hused ha)
  refine ⟨fun i hmem => ?_, fun hfl => hfault (if_pos hfl), fun hfl => hfault (if_neg hfl)⟩
  simp only [List.mem_cons, List.not_mem_nil, or_false] at hmem
  obtain rfl | rfl | rfl | rfl | rfl | rfl | rfl | rfl | rfl | rfl | rfl | rfl | rfl | rfl | rfl |
    rfl := hmem <;> exact hfault rfl

/-! ### The cause of every fault (R201 to R203, R208) -/

theorem decode_of_fetchDecode_ok {s : State} {i : Instr} (hpc : s.pc ≤ 253)
    (h : fetchDecode s = .ok i) :
    decode (s.byteAt s.pc) (s.byteAt (s.pc + 1)) (s.byteAt (s.pc + 2)) = .ok i := by
  cases hdec : decode (s.byteAt s.pc) (s.byteAt (s.pc + 1)) (s.byteAt (s.pc + 2)) with
  | ok j =>
    rw [fetchDecode_of_decode_ok hpc hdec] at h
    cases h
    rfl
  | error e =>
    rw [fetchDecode_of_decode_error hpc hdec] at h
    contradiction

/-- A byte that the decoder refuses is in no row of the dispatch table. -/
theorem opcodeTable_all_ne_of_decode_error {op a b : Byte} {e : DecodeError}
    (h : decode op a b = .error e) : opcodeTable.all (fun row => row.opcode != op) = true := by
  rw [decode_error h, decode_eq_error_iff] at h
  exact List.all_eq_true.2 fun row hrow =>
    bne_iff_ne.2 fun hop => h (List.mem_map.2 ⟨row, hrow, hop⟩)

/-- Every way a fetch can fault from an address that `pc` can have. -/
theorem fetchDecode_error {s : State} {c : Cause} (hpc : s.pc ≤ 256) (h : fetchDecode s = .error c) :
    (254 ≤ s.pc ∧ c = .outOfRangeMemory 256) ∨
    (s.pc ≤ 253 ∧ opcodeTable.all (fun row => row.opcode != s.byteAt s.pc) = true ∧
      c = .illegalOpcode (s.byteAt s.pc) s.pc) := by
  by_cases hle : s.pc ≤ 253
  · cases hdec : decode (s.byteAt s.pc) (s.byteAt (s.pc + 1)) (s.byteAt (s.pc + 2)) with
    | ok i =>
      rw [fetchDecode_of_decode_ok hle hdec] at h
      contradiction
    | error e =>
      rw [fetchDecode_of_decode_error hle hdec] at h
      cases h
      exact .inr ⟨hle, opcodeTable_all_ne_of_decode_error hdec, rfl⟩
  · have hge : 254 ≤ s.pc := Nat.lt_of_not_le hle
    rw [fetchDecode_of_gt hge, if_pos hpc] at h
    cases h
    exact .inl ⟨hge, rfl⟩

/-- Settles O14: a step faults in the fetch, in the decode or in the action, and each of them says with
which cause. -/
theorem everyFaultHasItsCause : Obligations.EveryFaultHasItsCause := by
  intro s t hpc hrun hstep hfault
  obtain ⟨hstop, -⟩ | ⟨-, c, hfetch, rfl⟩ | ⟨-, hle, i, hfetch, hexec⟩ := step_next hstep
  · exact absurd hrun hstop
  · obtain ⟨hge, rfl⟩ | ⟨hle, hrow, rfl⟩ := fetchDecode_error hpc hfetch
    · exact .inl ⟨hge, rfl⟩
    · exact .inr (.inl ⟨hle, hrow, rfl⟩)
  · refine .inr (.inr ⟨hle, i, decode_of_fetchDecode_ok hle hfetch, ?_⟩)
    obtain ⟨c, hact, rfl⟩ := exec_faulted hrun hexec hfault
    obtain ⟨r, hr, rfl⟩ | ⟨hregs, ⟨hs, rfl, hi⟩ | ⟨hs, rfl, hi⟩⟩ := action_error hact
    · exact .inl ⟨r, hr, rfl⟩
    · exact .inr ⟨hregs, .inl ⟨hs, hi, rfl⟩⟩
    · exact .inr ⟨hregs, .inr ⟨hs, hi, rfl⟩⟩

end Sys2Proof.Machine

/-! SUPPORT. Well-formed programs (70_reset_and_hazards R236): the only faults that a well-formed
instruction leaves possible, and that it records no register fault. -/

namespace Sys2Proof.Machine

/-- The action of a well-formed instruction can fault only on the stack pointer. -/
theorem action_error_of_wellFormed {i : Instr} {s : State} {c : Cause} (hi : i.wellFormed = true)
    (h : action i s = .error c) : c = .outOfRangeStack (-1) ∨ c = .outOfRangeStack 256 := by
  obtain hreg | ⟨-, ⟨-, hc, -⟩ | ⟨-, hc, -⟩⟩ := action_error h
  · obtain ⟨r, hr, hge, -⟩ := registerFault_mem hreg
    exact absurd (registersUsed_wellFormed hi s.fl r hr) (Nat.not_lt.mpr hge)
  · exact .inl hc
  · exact .inr hc

/-- Settles O42: a completed action records no cause, and a faulting one records a stack fault. -/
theorem wellFormedNeverFaultsOnRegister : Obligations.WellFormedNeverFaultsOnRegister := by
  intro i s t r hi hcause hexec
  obtain ⟨s', hact, rfl⟩ | ⟨c, hact, rfl⟩ := exec_next hexec
  · obtain ⟨-, hkeep⟩ := (action_effect hact).run_cause
    simp [hkeep, hcause]
  · rw [raise_cause]
    obtain rfl | rfl := action_error_of_wellFormed hi hact <;> simp

end Sys2Proof.Machine
